-- ==== Sys2Proof/Word.lean ====
section
/-! DEFINITION. The words the block carries: bytes, frames, payloads and durations. -/

namespace Sys2Proof

/-- One byte of a frame or of a payload (00_scope.md R10, every value is unsigned). -/
abbrev Byte := BitVec 8

/-- A duration in microseconds, the source's `u32` (30_encoding.md R73). -/
abbrev Duration := BitVec 32

/-- One wire frame, `frame[0..52]` (30_encoding.md R78: exactly 53 bytes). -/
abbrev Frame := Vector Byte 53

/-- One raw payload, `raw[0..24]` (30_encoding.md R80). -/
abbrev Raw := Vector Byte 25

end Sys2Proof
end

