-- ==== Sys2Proof/Syntax.lean ====
section
/-! DEFINITION. The requests of the port: the four operations with their operands, the request as the
port carries it, and the assembler lines of the spec's own notation. -/

namespace Sys2Proof

/-- The level of an edge event (00_scope.md R13): `L` is logic low (a mark), `H` is logic high (a space). -/
inductive Level where
  | L
  | H
deriving DecidableEq, Repr

/-- The four operations of the request port (00_scope.md R3, 30_encoding.md R71). -/
inductive Op where
  | encode
  | feed
  | parse
  | reset
deriving DecidableEq, Repr

/-- The command as raw numeric codes (30_encoding.md R74). The field group's two reserved bits hold no
field: they are 0 in a legal request and 0 on CMD_OUT. -/
structure Command where
  /-- update-type code -/
  upd : BitVec 8
  /-- mode code -/
  mode : BitVec 4
  /-- fan-speed code -/
  fan : BitVec 4
  /-- temperature, 0 to 63 -/
  temp : BitVec 6
  /-- on-timer in minutes; enabled iff nonzero -/
  ton : BitVec 12
  /-- off-timer in minutes; enabled iff nonzero -/
  toff : BitVec 12
deriving DecidableEq, Repr

/-- One constructor per row of spec/opcode_table.json. PARSE's operand is the bus FRAME_IN, which no
bit of the request word selects (30_encoding.md R75); the request carries it beside the word. -/
inductive Instr where
  /-- ENCODE, format E (30_encoding.md R72) -/
  | encode (c : Command)
  /-- FEED, format F (30_encoding.md R73) -/
  | feed (lv : Level) (d : Duration)
  /-- PARSE, format P (30_encoding.md R75) -/
  | parse
  /-- RESET, format R (30_encoding.md R76) -/
  | reset
deriving DecidableEq, Repr

/-- The operation of an instruction. -/
def Instr.op : Instr → Op
  | .encode _ => .encode
  | .feed _ _ => .feed
  | .parse => .parse
  | .reset => .reset

/-- One request as the port carries it: REQ[63:0] and the operand bus FRAME_IN[423:0]
(30_encoding.md R70). Any 64-bit word may be presented, a legal one or not. -/
structure Request where
  /-- REQ[63:0] -/
  word : BitVec 64
  /-- FRAME_IN[423:0]; only PARSE reads it -/
  frameIn : BitVec 424
deriving DecidableEq, Repr

/-- One line of the spec's request notation (30_encoding.md R100), its numbers as written: software that
holds wider types than the port's fields (60_exceptions.md R233). -/
inductive AsmLine where
  | encode (upd mode fan temp ton toff : Nat)
  | feed (lv : Level) (d : Nat)
  | parse (frame : List Nat)
  | reset
deriving DecidableEq, Repr

end Sys2Proof
end

