-- ==== Sys2Proof/WellFormed.lean ====
section
/-! DEFINITION. Well-formedness: which request words have their reserved bits clear, and which assembler
lines have operands that fit the request's fields. -/

namespace Sys2Proof

/-- The reserved bits of each format are 0 (30_encoding.md R77, first list): E: REQ[61:48] and
REQ[23:22]; F: REQ[61:33]; P and R: REQ[61:0]. -/
def reservedClear (op : Op) (w : BitVec 64) : Bool :=
  match op with
  | .encode => w.extractLsb' 48 14 == 0 && w.extractLsb' 22 2 == 0
  | .feed => w.extractLsb' 33 29 == 0
  | .parse => w.extractLsb' 0 62 == 0
  | .reset => w.extractLsb' 0 62 == 0

/-- The operands of an assembler line fit the fields of 30_encoding.md R100 (`<u8>`, `<u4>`, `<u6>`,
`<u12>`, `<u32>`), and a frame has 53 bytes (R78, R104). This is the boundary check of 40_encoder.md R113
and 60_exceptions.md R233: it stands before the port, and the block itself never makes it. -/
def AsmLine.wellFormed : AsmLine → Bool
  | .encode upd mode fan temp ton toff =>
    decide (upd < 2 ^ 8) && decide (mode < 2 ^ 4) && decide (fan < 2 ^ 4) && decide (temp < 2 ^ 6) &&
      decide (ton < 2 ^ 12) && decide (toff < 2 ^ 12)
  | .feed _ d => decide (d < 2 ^ 32)
  | .parse frame => frame.length == 53 && frame.all fun b => decide (b < 2 ^ 8)
  | .reset => true

/-- An instruction's operands are in range. The fields of `Instr` have exactly the widths of their ranges
(60_exceptions.md R233), so every instruction is well-formed; `Laws/PerInstr.lean` proves it. -/
def Instr.wellFormed : Instr → Bool
  | .encode c =>
    (AsmLine.encode c.upd.toNat c.mode.toNat c.fan.toNat c.temp.toNat c.ton.toNat c.toff.toNat).wellFormed
  | .feed lv d => (AsmLine.feed lv d.toNat).wellFormed
  | .parse => true
  | .reset => AsmLine.reset.wellFormed

end Sys2Proof
end

