-- ==== Sys2Proof/Decode.lean ====
section
/-! DEFINITION. Request words: the decoder, total on all 2^64 words, and the encoder, both written from
30_encoding.md R70 to R77. -/

namespace Sys2Proof

/-- The level as the bit REQ[32] (30_encoding.md R73): `L` = 0, `H` = 1. -/
def Level.bit : Level → BitVec 1
  | .L => 0
  | .H => 1

/-- The level a bit stands for. -/
def Level.ofBit (b : Bool) : Level :=
  match b with
  | false => .L
  | true => .H

/-- The operation codes of 30_encoding.md R71. -/
def Op.code : Op → BitVec 2
  | .encode => 0b00
  | .feed => 0b01
  | .parse => 0b10
  | .reset => 0b11

/-- `op = REQ[63:62]` (30_encoding.md R70, R71): all four values are assigned. -/
def opOf (w : BitVec 64) : Op :=
  match w.getLsbD 63, w.getLsbD 62 with
  | false, false => .encode
  | false, true => .feed
  | true, false => .parse
  | true, true => .reset

/-- `MASK[op]` of 30_encoding.md R77. -/
def Op.mask : Op → BitVec 64
  | .encode => 0xFFFF000000C00000
  | .feed => 0xFFFFFFFE00000000
  | .parse => 0xFFFFFFFFFFFFFFFF
  | .reset => 0xFFFFFFFFFFFFFFFF

/-- `MATCH[op]` of 30_encoding.md R77. -/
def Op.pattern : Op → BitVec 64
  | .encode => 0x0000000000000000
  | .feed => 0x4000000000000000
  | .parse => 0x8000000000000000
  | .reset => 0xC000000000000000

/-- The command field group `CMD[47:0]` (30_encoding.md R74), its two reserved bits 0. -/
def Command.pack (c : Command) : BitVec 48 :=
  c.toff ++ c.ton ++ 0#2 ++ c.temp ++ c.fan ++ c.mode ++ c.upd

/-- The fields of a command field group (30_encoding.md R74). -/
def Command.unpack (g : BitVec 48) : Command where
  upd := g.extractLsb' 0 8
  mode := g.extractLsb' 8 4
  fan := g.extractLsb' 12 4
  temp := g.extractLsb' 16 6
  ton := g.extractLsb' 24 12
  toff := g.extractLsb' 36 12

/-- Why a word is no request: a bit its format reserves is 1 (30_encoding.md R77). -/
inductive Reject where
  /-- a reserved bit of the format of this operation is 1 -/
  | reservedBits (op : Op)
deriving DecidableEq, Repr

/-- The operands of a word that is legal for its operation (30_encoding.md R72 to R76). -/
def operandsOf (op : Op) (w : BitVec 64) : Instr :=
  match op with
  | .encode => .encode (Command.unpack (w.extractLsb' 0 48))
  | .feed => .feed (Level.ofBit (w.getLsbD 32)) (w.extractLsb' 0 32)
  | .parse => .parse
  | .reset => .reset

/-- The decoder of request words, total on all 2^64 words (30_encoding.md R103). -/
def decode (w : BitVec 64) : Except Reject Instr :=
  if w &&& (opOf w).mask = (opOf w).pattern then .ok (operandsOf (opOf w) w)
  else .error (.reservedBits (opOf w))

/-- The request word of an instruction, from the formats of 30_encoding.md R72 to R76. -/
def encode : Instr → BitVec 64
  | .encode c => 0b00#2 ++ 0#14 ++ c.pack
  | .feed lv d => 0b01#2 ++ 0#29 ++ lv.bit ++ d
  | .parse => 0b10#2 ++ 0#62
  | .reset => 0b11#2 ++ 0#62

/-- The instruction an opcode-table word stands for. A request is one 64-bit word and no request spans
more (30_encoding.md R70), so the word's bits are REQ's own. -/
def decodeTableWord (nbits w : Nat) : Option Instr :=
  match decode (BitVec.ofNat 64 (w % 2 ^ nbits)) with
  | .ok i => some i
  | .error _ => none

/-- The number whose base-256 digits, the least significant first, are the bytes of a list. -/
def bytesToNat : List Byte → Nat
  | [] => 0
  | b :: bs => b.toNat + 256 * bytesToNat bs

/-- A wide bus from its bytes: byte `k` at bits [8k+7:8k] (20_memory.md R56). -/
def busOf {n : Nat} (v : Vector Byte n) : BitVec (8 * n) :=
  BitVec.ofNat (8 * n) (bytesToNat v.toList)

/-- Byte `k` of a wide bus: bits [8k+7:8k] (20_memory.md R56). -/
def byteOf {w : Nat} (bus : BitVec w) (k : Nat) : Byte :=
  bus.extractLsb' (8 * k) 8

/-- The frame a frame bus carries (30_encoding.md R75: `frame[k] = FRAME_IN[8k+7:8k]`). -/
def frameOfBus (bus : BitVec 424) : Frame :=
  Vector.ofFn fun k => byteOf bus k

/-- The request of an instruction with a value on FRAME_IN. -/
def Instr.request (i : Instr) (frameIn : BitVec 424) : Request where
  word := Sys2Proof.encode i
  frameIn := frameIn

/-- The request an assembler line gives (30_encoding.md R100), or none where an operand does not fit its
field: that check is software's, before the port (60_exceptions.md R233). A line with no frame leaves
FRAME_IN as it is on the bus. -/
def AsmLine.request (line : AsmLine) (busNow : BitVec 424) : Option Request :=
  if line.wellFormed then
    match line with
    | .encode upd mode fan temp ton toff =>
      some ((Instr.encode ⟨BitVec.ofNat 8 upd, BitVec.ofNat 4 mode, BitVec.ofNat 4 fan, BitVec.ofNat 6 temp,
        BitVec.ofNat 12 ton, BitVec.ofNat 12 toff⟩).request busNow)
    | .feed lv d => some ((Instr.feed lv (BitVec.ofNat 32 d)).request busNow)
    | .parse frame => some (Instr.parse.request (BitVec.ofNat 424 (bytesToNat (frame.map (BitVec.ofNat 8)))))
    | .reset => some (Instr.reset.request busNow)
  else none

end Sys2Proof
end

