-- ==== Sys2Proof/Config.lean ====
section
/-! DEFINITION. The OPEN parameters of 00_scope.md R8: fixed when the block is built, unknown to the model. -/

namespace Sys2Proof

/-- The OPEN parameters of 00_scope.md R8 that some rule of the block reads, with the constraint the
spec puts on them (the three mode codes are pairwise distinct, 70_reset_and_hazards.md R263). The
default values of the fields only show Lean that such a record exists, which a constant with no body
needs; nothing can be proved from them. -/
structure Params where
  /-- `PREAMBLE_BYTES[0..2]`, the three header bytes (30_encoding.md R79) -/
  preamble : Vector Byte 3 := Vector.replicate 3 0
  /-- `MODE_CODE_OFF` -/
  modeOff : BitVec 4 := 0
  /-- `MODE_CODE_HEATING` -/
  modeHeating : BitVec 4 := 1
  /-- `MODE_CODE_COOLING` -/
  modeCooling : BitVec 4 := 2
  off_ne_heating : modeOff ≠ modeHeating := by decide
  off_ne_cooling : modeOff ≠ modeCooling := by decide
  heating_ne_cooling : modeHeating ≠ modeCooling := by decide
deriving Inhabited

/-- The block's own parameters: any admissible record. It has no body, so a proof about the block holds
for every admissible value (00_scope.md R8). -/
opaque Config.params : Params

/-- `LATENCY`, the time of each operation (70_reset_and_hazards.md R280). OPEN, and no rule reads it. -/
opaque Config.latency : Op → Nat

end Sys2Proof
end

