-- ==== Sys2Proof/Machine/State.lean ====
section
/-! DEFINITION. The state of the block, its responses, the reasons a step can stop, and the state at
power-on. -/

namespace Sys2Proof.Machine

/-- The decoder's five stages (10_state.md R23). The codes 5, 6 and 7 of the 3-bit field are never held
(10_state.md R31 (a)). -/
inductive Stage where
  /-- 0, waits for a leader mark -/
  | idle
  /-- 1, requires the leader space (the name is the source's label, 90_conflicts.md C3) -/
  | leaderMark
  /-- 2, requires the header mark -/
  | leaderSpace
  /-- 3, requires the header space -/
  | syncBit
  /-- 4, bits -/
  | dataMode
deriving DecidableEq, Repr

/-- The windows an event can be tested against, with the ids 0 to 5 of 30_encoding.md R92. The ids 6
and 7 are reserved and never reported (R93). -/
inductive WindowId where
  | leaderMark
  | leaderSpace
  | headerMark
  | headerSpace
  | bitMark
  | bitSpace
deriving DecidableEq, Repr

/-- The response kinds with the details each carries (30_encoding.md R86, R88, R89, R90). Kinds 5 and 6
are reserved and never produced. -/
inductive Reply where
  /-- kind 0 -/
  | done
  /-- kind 1 -/
  | pending
  /-- kind 2 -/
  | frameComplete
  /-- kind 3, detail of R88 -/
  | toleranceViolation (stage : Stage) (level : Level) (expected : WindowId) (duration : Duration)
  /-- kind 4, detail of R89 -/
  | redundancyMismatch (byteIndex : BitVec 6) (data complement : Byte)
  /-- kind 7, detail of R90 -/
  | illegalRequest (op : Op)
deriving DecidableEq, Repr

/-- One response on the response port (30_encoding.md R86): the word RSP[63:0] and the result buses. A
bus the kind does not drive holds no value (30_encoding.md R87). -/
structure Response where
  /-- RSP[63:0] -/
  word : BitVec 64
  /-- CMD_OUT[47:0] -/
  cmdOut : Option (BitVec 48)
  /-- WARN_OUT[24:0] -/
  warnOut : Option (BitVec 25)
  /-- RAW_OUT[199:0] -/
  rawOut : Option (BitVec 200)
  /-- FRAME_OUT[423:0] -/
  frameOut : Option (BitVec 424)
deriving DecidableEq, Repr

/-- The decoder-state record (10_state.md R22). -/
structure Decoder where
  /-- decoder stage -/
  stage : Stage
  /-- in DataMode: a mark is expected next (10_state.md R24) -/
  carrier : Bool
  /-- bits of the byte being assembled, the first received at bit 0 (10_state.md R25) -/
  acc : Byte
  /-- number of bits in `acc` (10_state.md R26) -/
  nbits : BitVec 3
  /-- number of bytes assembled in this frame (10_state.md R27) -/
  byteIndex : BitVec 6
  /-- the next non-header byte is a complement-check byte (10_state.md R28) -/
  check : Bool
  /-- the frame assembled so far; `none` is an unwritten cell (10_state.md R29, 00_scope.md R15) -/
  buf : Vector (Option Byte) 53
deriving DecidableEq, Repr

/-- INIT (10_state.md R34). -/
def Decoder.init : Decoder where
  stage := .idle
  carrier := true
  acc := 0
  nbits := 0
  byteIndex := 0
  check := false
  buf := Vector.replicate 53 none

/-- The reasons a step stops with a fault. Both are raised by FEED alone, in decoder states that the
invariant of 10_state.md R31 rules out (`Safety.lean`), so no run from power-on meets one. Both are safe:
the spec gives such a state no next state, and the model gives it none. -/
inductive Fault where
  /-- FEED reads a `buf` cell that holds no value. 00_scope.md R15: "a model that reads one has a bug". Safe. -/
  | unwrittenCell
  /-- FEED completes a byte with `byte_index` at 53 or above, where `buf` has no cell (10_state.md R27:
  between requests it is at most 52). Safe. -/
  | frameOverrun
deriving DecidableEq, Repr

/-- The reasons a step is refused. No arm of `exec` refuses. -/
inductive Refusal where
  /-- an instruction with no meaning in the model, by its mnemonic; raised by no arm; safe -/
  | notModelled (mnemonic : String)
deriving DecidableEq, Repr

/-- The state. `dec` is the block's whole mutable state (10_state.md R20, R22). `response` is what the
response port carries (30_encoding.md R86). `waiting` and `frameIn` are the model's own: the requests the
port has still to accept, in port order (20_memory.md R62: the input of the block), and the value on the
FRAME_IN bus with the request being executed (30_encoding.md R70). -/
structure State where
  /-- the decoder-state record `s` of the spec -/
  dec : Decoder
  /-- the response to the latest request; none before the first (70_reset_and_hazards.md R260) -/
  response : Option Response
  /-- MODEL'S OWN: requests still to be accepted, first to be accepted first -/
  waiting : List Request
  /-- MODEL'S OWN: FRAME_IN[423:0] as the request being executed drives it -/
  frameIn : BitVec 424
deriving DecidableEq, Repr

/-- The state at power-on (70_reset_and_hazards.md R260). -/
def State.reset : State where
  dec := Decoder.init
  response := none
  waiting := []
  frameIn := 0

end Sys2Proof.Machine
end

