-- ==== Sys2Proof/Machine/Table.lean ====
section
/-! DEFINITION. The block's hardwired constant table (10_state.md R33): payload constants, mode classes,
tolerance windows. -/

namespace Sys2Proof.Machine

/-- `RAW_CONST[i]` at the constant positions 0 to 3, 6 and 13 to 24 of the payload, none at the variable
positions (30_encoding.md R81). -/
def rawConst : Vector (Option Byte) 25 :=
  #v[some 0x40, some 0xFF, some 0xCC, some 0x92, none, none, some 0x00, none, none, none, none, none, none,
    some 0x00, some 0x00, some 0x80, some 0x03, some 0x01, some 0x88, some 0x00, some 0x00, some 0xFF,
    some 0xFF, some 0xFF, some 0xFF]

/-- `raw[12]` as a function of the mode code (30_encoding.md R83). -/
def modeClass (p : Params) (mode : BitVec 4) : Byte :=
  if mode = p.modeOff then 0xE1
  else if mode = p.modeHeating ∨ mode = p.modeCooling then 0xF1
  else 0xF0

/-- `raw[11][3:0]` as a function of the mode code: OFF is sent with HEATING's code (30_encoding.md R82). -/
def modeNibble (p : Params) (mode : BitVec 4) : BitVec 4 :=
  if mode = p.modeOff then p.modeHeating else mode

/-- `lo <= d <= hi`, both ends inside, compared unsigned (00_scope.md R14). -/
def inW (lo hi d : Duration) : Bool :=
  decide (lo ≤ d) && decide (d ≤ hi)

/-- W_LEADER_MARK (30_encoding.md R92, id 0). -/
def inLeaderMark (d : Duration) : Bool := inW 28000 31000 d

/-- W_LEADER_SPACE (30_encoding.md R92, id 1). -/
def inLeaderSpace (d : Duration) : Bool := inW 48000 51000 d

/-- W_HEADER_MARK (30_encoding.md R92, id 2). -/
def inHeaderMark (d : Duration) : Bool := inW 3300 3500 d

/-- W_HEADER_SPACE (30_encoding.md R92, id 3). -/
def inHeaderSpace (d : Duration) : Bool := inW 1600 1700 d

/-- W_BIT_MARK (30_encoding.md R92, id 4). -/
def inBitMark (d : Duration) : Bool := inW 400 470 d

/-- W_BIT_ZERO (30_encoding.md R92, part of id 5). -/
def inBitZero (d : Duration) : Bool := inW 390 450 d

/-- W_BIT_ONE (30_encoding.md R92, part of id 5). -/
def inBitOne (d : Duration) : Bool := inW 1230 1290 d

/-- The 3-bit code of a stage (10_state.md R23). -/
def Stage.code : Stage → BitVec 3
  | .idle => 0
  | .leaderMark => 1
  | .leaderSpace => 2
  | .syncBit => 3
  | .dataMode => 4

/-- The 3-bit id of a window (30_encoding.md R92, R93). -/
def WindowId.code : WindowId → BitVec 3
  | .leaderMark => 0
  | .leaderSpace => 1
  | .headerMark => 2
  | .headerSpace => 3
  | .bitMark => 4
  | .bitSpace => 5

/-- The level of a window's events (30_encoding.md R92). -/
def WindowId.level : WindowId → Level
  | .leaderMark => .L
  | .leaderSpace => .H
  | .headerMark => .L
  | .headerSpace => .H
  | .bitMark => .L
  | .bitSpace => .H

/-- The durations of a window; window 5 is the union of W_BIT_ZERO and W_BIT_ONE (30_encoding.md R92). -/
def WindowId.holds : WindowId → Duration → Bool
  | .leaderMark, d => inLeaderMark d
  | .leaderSpace, d => inLeaderSpace d
  | .headerMark, d => inHeaderMark d
  | .headerSpace, d => inHeaderSpace d
  | .bitMark, d => inBitMark d
  | .bitSpace, d => inBitZero d || inBitOne d

/-- An event fits a window iff its level and its duration both do (41_decoder.md R147 to R149). -/
def WindowId.fits (w : WindowId) (lv : Level) (d : Duration) : Bool :=
  lv == w.level && w.holds d

end Sys2Proof.Machine
end

