-- ==== Sys2Proof/Machine/Flags.lean ====
section
/-! DEFINITION. The block has no flags (10_state.md R32): a request reports its result as the kind and the
detail bits of the response word, and the parser as the warning mask. Both are computed here. -/

namespace Sys2Proof.Machine

/-- The response kind, RSP[2:0] (30_encoding.md R86). -/
def Reply.kind : Reply → BitVec 3
  | .done => 0
  | .pending => 1
  | .frameComplete => 2
  | .toleranceViolation _ _ _ _ => 3
  | .redundancyMismatch _ _ _ => 4
  | .illegalRequest _ => 7

/-- The response word RSP[63:0]: the kind in RSP[2:0], the detail above it as 30_encoding.md R88, R89 and
R90 lay it out, every other bit 0 (R87). -/
def Reply.word : Reply → BitVec 64
  | .done => 0#61 ++ 0#3
  | .pending => 0#61 ++ 1#3
  | .frameComplete => 0#61 ++ 2#3
  | .toleranceViolation st lv w d => 0#22 ++ d ++ w.code ++ lv.bit ++ st.code ++ 3#3
  | .redundancyMismatch k dv v => 0#39 ++ v ++ dv ++ k ++ 4#3
  | .illegalRequest op => 0#59 ++ op.code ++ 7#3

/-- The bits of a list as a number, the head at bit 0. -/
def bitsToNat : List Bool → Nat
  | [] => 0
  | b :: bs => b.toNat + 2 * bitsToNat bs

/-- WARN_OUT: bit `i` is 1 iff `raw[i]` differs from its expected value (42_parser.md R197,
30_encoding.md R91). -/
def warnMask (raw expected : Raw) : BitVec 25 :=
  BitVec.ofNat 25 (bitsToNat (Vector.ofFn fun i : Fin 25 => raw[i] != expected[i]).toList)

end Sys2Proof.Machine
end

