-- ==== Sys2Proof/Machine/Operands.lean ====
section
/-! DEFINITION. The operands and results a request reads and drives as whole values (20_memory.md R59): the
frame on FRAME_IN, and the four responses' forms of the result buses. -/

namespace Sys2Proof.Machine

/-- PARSE's operand: the frame the request's FRAME_IN bus holds (30_encoding.md R75). -/
def State.frameOperand (s : State) : Frame :=
  frameOfBus s.frameIn

/-- A response that drives no bus (30_encoding.md R86: kinds 1, 3, 4 and 7, and RESET's DONE). -/
def bareResponse (r : Reply) : Response where
  word := r.word
  cmdOut := none
  warnOut := none
  rawOut := none
  frameOut := none

/-- ENCODE's DONE: FRAME_OUT alone (30_encoding.md R86). -/
def frameResponse (f : Frame) : Response :=
  { bareResponse .done with frameOut := some (busOf f) }

/-- The responses that carry a parsed command: PARSE's DONE and FEED's FRAME_COMPLETE (30_encoding.md R86). -/
def commandResponse (r : Reply) (c : Command) (warn : BitVec 25) (raw : Raw) : Response :=
  { bareResponse r with cmdOut := some c.pack, warnOut := some warn, rawOut := some (busOf raw) }

end Sys2Proof.Machine
end

