-- ==== Sys2Proof/Machine/Ops.lean ====
section
/-! DEFINITION. The operations the meanings share: the port, the frame buffer, the decoder record's
updates, and what an error does. -/

namespace Sys2Proof.Machine

/-- What a request ends in. -/
abbrev Result := Host.Outcome State Fault Refusal

/-- The port accepts its next request: the request leaves the list and drives FRAME_IN
(30_encoding.md R70, 20_memory.md R62). -/
def State.accept (s : State) (r : Request) (rest : List Request) : State :=
  { s with waiting := rest, frameIn := r.frameIn }

/-- A requester outside the block puts a request on the port, after those already there. -/
def State.submit (s : State) (r : Request) : State :=
  { s with waiting := s.waiting ++ [r] }

/-- The response port carries a response (30_encoding.md R86: exactly one per request). -/
def State.respond (s : State) (r : Response) : State :=
  { s with response := some r }

/-- The decoder record takes a new value. -/
def State.withDec (s : State) (d : Decoder) : State :=
  { s with dec := d }

/-- `return R` of 00_scope.md R12: the request ends with this response. -/
def finish (s : State) (r : Response) : Result :=
  .next (s.respond r)

/-- FEED's `return PENDING` after it has left the decoder at `d` (60_exceptions.md R234). -/
def pend (s : State) (d : Decoder) : Result :=
  finish (s.withDec d) (bareResponse .pending)

/-- What a decode error does, the spec's "trap entry" (60_exceptions.md R238): the decoder becomes INIT,
the detail goes into the response word, nothing else is saved, and there is no vector and no handler. It
has no return: the next FEED is processed from Idle (60_exceptions.md R239). -/
def errorEntry (s : State) (r : Reply) : Result :=
  finish (s.withDec Decoder.init) (bareResponse r)

/-- `VIOLATE` of 41_decoder.md R140 (R171). -/
def violate (s : State) (st : Stage) (lv : Level) (d : Duration) (w : WindowId) : Result :=
  errorEntry s (.toleranceViolation st lv w d)

/-- An illegal request (43_control.md R221): no decoder state is read or written, no bus is driven. -/
def illegalRequest (op : Op) (s : State) : Result :=
  finish s (bareResponse (.illegalRequest op))

/-- Byte `k` of the frame buffer; none where the cell is unwritten or does not exist. -/
def readCell (buf : Vector (Option Byte) 53) (k : Nat) : Option Byte :=
  (buf[k]?).join

/-- The whole frame, once every cell holds a value (41_decoder.md R166, R168). -/
def frameOfCells (buf : Vector (Option Byte) 53) : Option Frame :=
  if h : ∀ k : Fin 53, (buf[k]).isSome then some (Vector.ofFn fun k => (buf[k]).get (h k)) else none

/-- `s.stage <- st`. -/
def Decoder.setStage (d : Decoder) (st : Stage) : Decoder :=
  { d with stage := st }

/-- `s.carrier <- c`. -/
def Decoder.setCarrier (d : Decoder) (c : Bool) : Decoder :=
  { d with carrier := c }

/-- `s.acc | (b << s.nbits)` (41_decoder.md R160). -/
def Decoder.accWith (d : Decoder) (b : Bool) : Byte :=
  d.acc ||| (BitVec.setWidth 8 (BitVec.ofBool b) <<< d.nbits.toNat)

/-- A bit that does not complete the byte: it is placed at bit `nbits` of `acc`, and `nbits` counts it
(41_decoder.md R160). -/
def Decoder.pushBit (d : Decoder) (b : Bool) : Decoder :=
  { d with acc := d.accWith b, nbits := d.nbits + 1 }

/-- `s.acc <- 0; s.nbits <- 0`, when the byte is complete (41_decoder.md R160). -/
def Decoder.clearBits (d : Decoder) : Decoder :=
  { d with acc := 0, nbits := 0 }

/-- `s.buf[k] <- v; s.byte_index <- k + 1; s.check <- c` with `k = s.byte_index` (41_decoder.md R162). -/
def Decoder.storeByte (d : Decoder) (v : Byte) (c : Bool) : Decoder :=
  { d with buf := d.buf.setIfInBounds d.byteIndex.toNat (some v), byteIndex := d.byteIndex + 1, check := c }

end Sys2Proof.Machine
end

