-- ==== Sys2Proof/Machine/Control.lean ====
section
/-! DEFINITION. RESET (43_control.md). -/

namespace Sys2Proof.Machine

/-- RESET (43_control.md R220): every decoder field takes its INIT value, and a frame in progress is
discarded without a report (R223). -/
def execReset (s : State) : Result :=
  finish (s.withDec Decoder.init) (bareResponse .done)

end Sys2Proof.Machine
end

