-- ==== Sys2Proof/Machine/Encoder.lean ====
section
/-! DEFINITION. ENCODE: the command serializer and the frame encoder (40_encoder.md). -/

namespace Sys2Proof.Machine

/-- SERIALIZE (40_encoder.md R111): the 25-byte payload of a command. -/
def serialize (p : Params) (c : Command) : Raw :=
  #v[0x40, 0xFF, 0xCC, 0x92,
    c.upd,
    BitVec.setWidth 8 c.temp <<< 2,
    0x00,
    BitVec.setWidth 8 (c.toff &&& 0xF) <<< 4,
    BitVec.setWidth 8 ((c.toff >>> 4) &&& 0xFF),
    BitVec.setWidth 8 (c.ton &&& 0xFF),
    BitVec.setWidth 8 ((c.ton >>> 8) &&& 0xF) ||| (BitVec.setWidth 8 (BitVec.ofBool (c.toff != 0)) <<< 4) |||
      (BitVec.setWidth 8 (BitVec.ofBool (c.ton != 0)) <<< 5),
    (BitVec.setWidth 8 c.fan <<< 4) ||| BitVec.setWidth 8 (modeNibble p c.mode),
    modeClass p c.mode,
    0x00, 0x00, 0x80, 0x03, 0x01, 0x88, 0x00, 0x00, 0xFF, 0xFF, 0xFF, 0xFF]

/-- Byte `k` of DOUBLE's frame: a header byte below 3, then at `2i+3` the payload byte `raw[i]` and at
`2i+4` its one's complement (40_encoder.md R112, 30_encoding.md R78). -/
def doubledByte (p : Params) (raw : Raw) (k : Fin 53) : Byte :=
  if h : k.val < 3 then p.preamble[k.val]
  else if k.val % 2 = 1 then raw[(k.val - 3) / 2]'(by omega)
  else raw[(k.val - 4) / 2]'(by omega) ^^^ 0xFF

/-- DOUBLE, the frame encoder (40_encoder.md R112). -/
def double (p : Params) (raw : Raw) : Frame :=
  Vector.ofFn (doubledByte p raw)

/-- The frame of a command (40_encoder.md R110). -/
def encodeFrame (p : Params) (c : Command) : Frame :=
  double p (serialize p c)

/-- ENCODE (40_encoder.md R110): it never fails, and it reads and writes no decoder state (R113, R118). -/
def execEncode (c : Command) (s : State) : Result :=
  finish s (frameResponse (encodeFrame Config.params c))

end Sys2Proof.Machine
end

