-- ==== Sys2Proof/Machine/Parser.lean ====
section
/-! DEFINITION. PARSE: the command deserializer and its field warnings (42_parser.md). -/

namespace Sys2Proof.Machine

/-- The bytes the parser reads: the data bytes `frame[2i+3]`, and no other (42_parser.md R191). -/
def dataBytes (f : Frame) : Raw :=
  Vector.ofFn fun i : Fin 25 => f[2 * i.val + 3]

/-- The mode (42_parser.md R194): only the class byte 0xE1 tells OFF. -/
def parsedMode (p : Params) (raw : Raw) : BitVec 4 :=
  if raw[12] = 0xE1 then p.modeOff else BitVec.setWidth 4 (raw[11] &&& 0xF)

/-- The command of a payload (42_parser.md R192, R193, R195). -/
def deserialize (p : Params) (raw : Raw) : Command where
  upd := raw[4]
  temp := BitVec.setWidth 6 (raw[5] >>> 2)
  toff := (BitVec.setWidth 12 raw[8] <<< 4) ||| BitVec.setWidth 12 (raw[7] >>> 4)
  ton := (BitVec.setWidth 12 (raw[10] &&& 0xF) <<< 8) ||| BitVec.setWidth 12 raw[9]
  fan := BitVec.setWidth 4 (raw[11] >>> 4)
  mode := parsedMode p raw

/-- The warning mask of a payload: it is compared with what its own command would encode to
(42_parser.md R196, R197). -/
def fieldWarnings (p : Params) (raw : Raw) : BitVec 25 :=
  warnMask raw (serialize p (deserialize p raw))

/-- PARSE_FRAME (42_parser.md R192) with the response kind it is reported under: the command, the warning
mask and the data bytes. Warnings never block (R198). -/
def parseResponse (p : Params) (r : Reply) (f : Frame) : Response :=
  commandResponse r (deserialize p (dataBytes f)) (fieldWarnings p (dataBytes f)) (dataBytes f)

/-- PARSE (42_parser.md R190): it never fails, and it reads and writes no decoder state. -/
def execParse (s : State) : Result :=
  finish s (parseResponse Config.params .done s.frameOperand)

end Sys2Proof.Machine
end

