-- ==== Sys2Proof/Machine/Feed.lean ====
section
/-! DEFINITION. FEED: the edge-timing decoder (41_decoder.md). -/

namespace Sys2Proof.Machine

/-- A check byte has passed and is stored: at position 52 the frame is complete, is parsed, and the decoder
returns to INIT (41_decoder.md R167, R168). -/
def acceptCheck (d : Decoder) (s : State) : Result :=
  if d.byteIndex = 53 then
    match frameOfCells d.buf with
    | some f => finish (s.withDec Decoder.init) (parseResponse Config.params .frameComplete f)
    | none => .fault .unwrittenCell
  else pend s d

/-- A complement-check byte `v` at position `k = byte_index` (41_decoder.md R164, R165, R167). -/
def checkByte (d : Decoder) (v : Byte) (s : State) : Result :=
  match readCell d.buf (d.byteIndex.toNat - 1) with
  | some dv =>
    if v = dv ^^^ 0xFF then acceptCheck (d.storeByte v false) s
    else errorEntry s (.redundancyMismatch d.byteIndex dv v)
  | none => .fault .unwrittenCell

/-- ACCEPT_BYTE (41_decoder.md R161 to R168): header byte, data byte or check byte. -/
def acceptByte (d : Decoder) (v : Byte) (s : State) : Result :=
  if 53 ≤ d.byteIndex.toNat then .fault .frameOverrun
  else if d.byteIndex.toNat < 3 then pend s (d.storeByte v d.check)
  else
    match d.check with
    | false => pend s (d.storeByte v true)
    | true => checkByte d v s

/-- ACCEPT_BIT (41_decoder.md R160). -/
def acceptBit (d : Decoder) (b : Bool) (s : State) : Result :=
  if d.nbits.toNat < 7 then pend s (d.pushBit b)
  else acceptByte d.clearBits (d.accWith b) s

/-- An event in DataMode with a space expected: its duration is a 0, a 1 or a violation
(41_decoder.md R149). -/
def feedSpace (lv : Level) (d : Duration) (s : State) : Result :=
  match lv with
  | .L => violate s .dataMode lv d .bitSpace
  | .H =>
    if inBitZero d then acceptBit (s.dec.setCarrier true) false s
    else if inBitOne d then acceptBit (s.dec.setCarrier true) true s
    else violate s .dataMode lv d .bitSpace

/-- An event that must fit one window: the decoder moves to `next` or the event is a violation
(41_decoder.md R144 to R148). -/
def feedExpect (w : WindowId) (next : Decoder) (lv : Level) (d : Duration) (s : State) : Result :=
  if w.fits lv d then pend s next else violate s s.dec.stage lv d w

/-- An event in Idle: a high level is ignored, a leader mark advances, any other low level is a violation
(41_decoder.md R141, R142, R143). -/
def feedIdle (lv : Level) (d : Duration) (s : State) : Result :=
  match lv with
  | .H => pend s s.dec
  | .L => feedExpect .leaderMark (s.dec.setStage .leaderMark) .L d s

/-- FEED (41_decoder.md R140). -/
def execFeed (lv : Level) (d : Duration) (s : State) : Result :=
  match s.dec.stage with
  | .idle => feedIdle lv d s
  | .leaderMark => feedExpect .leaderSpace (s.dec.setStage .leaderSpace) lv d s
  | .leaderSpace => feedExpect .headerMark (s.dec.setStage .syncBit) lv d s
  | .syncBit => feedExpect .headerSpace (s.dec.setStage .dataMode) lv d s
  | .dataMode =>
    match s.dec.carrier with
    | true => feedExpect .bitMark (s.dec.setCarrier false) lv d s
    | false => feedSpace lv d s

end Sys2Proof.Machine
end

