-- ==== Sys2Proof/Machine/Dispatch.lean ====
section
/-! DEFINITION. One arm per instruction. -/

namespace Sys2Proof.Machine

def exec (i : Instr) (s : State) : Host.Outcome State Fault Refusal :=
  match i with
  | .encode c => Sys2Proof.Machine.execEncode c s
  | .feed lv d => Sys2Proof.Machine.execFeed lv d s
  | .parse => Sys2Proof.Machine.execParse s
  | .reset => Sys2Proof.Machine.execReset s

end Sys2Proof.Machine
end

