-- ==== Sys2Proof/Machine/Step.lean ====
section
/-! DEFINITION. One step: the port's next request, executed to completion (20_memory.md R60, R62). -/

namespace Sys2Proof.Machine

/-- One step. The block accepts the first waiting request and ends it with one response: a legal one runs
its operation, an illegal one is answered ILLEGAL_REQUEST (43_control.md R221). With no request waiting
the block reacts to nothing and holds its state (41_decoder.md R172, 60_exceptions.md R246). -/
def step (s : State) : Host.Outcome State Fault Refusal :=
  match s.waiting with
  | [] => .next s
  | r :: rest =>
    match decode r.word with
    | .ok i => exec i (s.accept r rest)
    | .error (.reservedBits op) => illegalRequest op (s.accept r rest)

/-- The state with a request word placed where the next step takes its request: first on the port, with
FRAME_IN as it is on the bus. -/
def State.withFetchWord (s : State) (nbits w : Nat) : State :=
  { s with waiting := ⟨BitVec.ofNat 64 (w % 2 ^ nbits), s.frameIn⟩ :: s.waiting }

end Sys2Proof.Machine
end

