-- ==== Sys2Proof/Machine/Pseudo.lean ====
section
/-! DEFINITION. The spec's pseudo-instructions (30_encoding.md R101): the reference transmit simulation as
lists of FEED requests. -/

namespace Sys2Proof.Machine

/-- `FEEDPRE` with the reference timings of 30_encoding.md R96. -/
def feedPre : List Instr :=
  [.feed .L 29500, .feed .H 49500, .feed .L 3380, .feed .H 1700]

/-- `FEEDBIT b`. -/
def feedBit (b : Bool) : List Instr :=
  [.feed .L 410, .feed .H (if b then 1258 else 424)]

/-- `FEEDBYTE v`: bit 0 first (20_memory.md R55). -/
def feedByte (v : Byte) : List Instr :=
  (List.range 8).flatMap fun j => feedBit (v.getLsbD j)

/-- `FEEDFRAME f`: byte 0 first (20_memory.md R54). -/
def feedFrame (f : Frame) : List Instr :=
  f.toList.flatMap feedByte

/-- `SEND f`. -/
def send (f : Frame) : List Instr :=
  feedPre ++ feedFrame f

/-- `TRAIL`, a trailing mark (30_encoding.md R95). -/
def trail : List Instr :=
  [.feed .L 410]

/-- The time a list of events lasts on the line, in microseconds (70_reset_and_hazards.md R282). -/
def airTime : List Instr → Nat
  | [] => 0
  | .feed _ d :: is => d.toNat + airTime is
  | _ :: is => airTime is

end Sys2Proof.Machine
end

