-- ==== Sys2Proof/Safety.lean ====
section
/-! DEFINITION. The terms claims are made in: the decoder's invariant, a legal response, and runs over a
sequence of requests. -/

namespace Sys2Proof.Machine

/-- The invariant of 10_state.md R31, which holds between any two requests. Its item (a) and the bound on
`nbits` in (c) hold by the fields' types. -/
structure Decoder.Inv (d : Decoder) : Prop where
  /-- R31 (b): outside DataMode every other field is at its INIT value -/
  outside : d.stage ≠ .dataMode → d = Decoder.init.setStage d.stage
  /-- R31 (c) -/
  accBound : d.acc.toNat < 2 ^ d.nbits.toNat
  /-- R31 (d) -/
  indexBound : d.byteIndex.toNat ≤ 52
  /-- R31 (e) -/
  checkEven : d.check = true ↔ 3 ≤ d.byteIndex.toNat ∧ d.byteIndex.toNat % 2 = 0
  /-- R31 (f), first half -/
  written : ∀ k : Fin 53, (d.buf[k]).isSome = true ↔ k.val < d.byteIndex.toNat
  /-- R31 (f), second half -/
  paired : ∀ k : Fin 53, 4 ≤ k.val → k.val < d.byteIndex.toNat → k.val % 2 = 0 →
    d.buf[k] = (readCell d.buf (k.val - 1)).map (fun b => b ^^^ 0xFF)

/-- A response the block may give: its buses are those its kind drives (30_encoding.md R86, R87), and its
word is that of a reply. -/
def Response.Legal (r : Response) : Prop :=
  (∃ f : Frame, r = frameResponse f) ∨
  (∃ reply c warn raw, (reply = .done ∨ reply = .frameComplete) ∧ r = commandResponse reply c warn raw) ∨
  (∃ reply, reply ≠ .frameComplete ∧ r = bareResponse reply)

/-- The kind of a response, RSP[2:0] (30_encoding.md R86). -/
def Response.kind (r : Response) : BitVec 3 :=
  r.word.extractLsb' 0 3

/-- No result bus is driven (30_encoding.md R87). -/
def Response.NoBus (r : Response) : Prop :=
  r.cmdOut = none ∧ r.warnOut = none ∧ r.rawOut = none ∧ r.frameOut = none

/-- The window the decoder's state tests the next event against (60_exceptions.md R232). -/
def Decoder.expects (d : Decoder) : WindowId :=
  match d.stage, d.carrier with
  | .idle, _ => .leaderMark
  | .leaderMark, _ => .leaderSpace
  | .leaderSpace, _ => .headerMark
  | .syncBit, _ => .headerSpace
  | .dataMode, true => .bitMark
  | .dataMode, false => .bitSpace

/-- An event the decoder takes without a tolerance violation: a high level in Idle, or one that fits the
window its state expects (41_decoder.md R174). -/
def Decoder.Takes (d : Decoder) (lv : Level) (dur : Duration) : Prop :=
  (d.stage = .idle ∧ lv = .H) ∨ d.expects.fits lv dur = true

/-- The decoder has a space expected that completes a byte, and that byte would be `v` (41_decoder.md R160):
this event is the bit `b`. -/
structure Decoder.Completes (d : Decoder) (b : Bool) (v : Byte) : Prop where
  stage : d.stage = .dataMode
  carrier : d.carrier = false
  nbits : d.nbits = 7
  value : v = d.acc ||| (if b then 0x80 else 0)

/-- The duration of a space that is the bit `b` (30_encoding.md R92). -/
def isBit (b : Bool) (d : Duration) : Bool :=
  match b with
  | false => inBitZero d
  | true => inBitOne d

/-- A frame whose every check byte is the complement of its data byte (30_encoding.md R78). -/
def Frame.Paired (f : Frame) : Prop :=
  ∀ i : Fin 25, f[2 * i.val + 4] = f[2 * i.val + 3] ^^^ 0xFF

/-- The machine with these requests to serve, after which no request is left. -/
def State.withRequests (s : State) (rs : List Request) : State :=
  { s with waiting := rs }

/-- `n` steps, with the response the port carries after each (00_scope.md R18: a claim is over a sequence
of requests and their responses). None where a step stops. -/
def trace : Nat → State → Option (List (Option Response) × State)
  | 0, s => some ([], s)
  | n + 1, s =>
    match step s with
    | .next t => (trace n t).map fun p => (t.response :: p.1, p.2)
    | .fault _ => none
    | .refused _ => none

/-- These requests' words are those of the instructions, in order; what they put on FRAME_IN is left open. -/
def wordsAre (rs : List Request) (is : List Instr) : Prop :=
  rs.map Request.word = is.map encode

end Sys2Proof.Machine

namespace Sys2Proof

/-- The requests that can change the decoder: a legal FEED or a legal RESET (10_state.md R36, R37). -/
def Request.touchesDecoder (r : Request) : Bool :=
  match decode r.word with
  | .ok (.feed _ _) => true
  | .ok .reset => true
  | .ok (.encode _) => false
  | .ok .parse => false
  | .error _ => false

end Sys2Proof
end

