-- ==== Sys2Proof/Certificates/Slice0/Obligations.lean ====
section
/-! DEFINITION. The statements about the block, each from a rule of the spec. -/

open Sys2Proof Sys2Proof.Machine

/-! ## Request words -/

/-- 30_encoding.md R102: the encoded words of the FEED requests the pseudo-instructions use.
Log entry 8: the words are the spec's derivation, from its decisions D2, D28 and D29. -/
def Obligations.ReferenceFeedWordsEncodeAndDecode : Prop :=
  ∀ p ∈ ([(.feed .L 29500, 0x400000000000733C), (.feed .H 49500, 0x400000010000C15C),
      (.feed .L 3380, 0x4000000000000D34), (.feed .H 1700, 0x40000001000006A4), (.feed .L 410, 0x400000000000019A),
      (.feed .H 424, 0x40000001000001A8), (.feed .H 1258, 0x40000001000004EA)] : List (Instr × BitVec 64)),
    encode p.1 = p.2 ∧ decode p.2 = .ok p.1

/-- 95_test_vectors.md L2-E (E2), 42_parser.md R190, 43_control.md R220: one word written out for each
format beside FEED's.
Log entry 8: the request formats are the spec's decisions D2 and D3. -/
def Obligations.WrittenOutWordsDecode : Prop :=
  decode 0x0000FFF001163613 = .ok (.encode ⟨0x13, 6, 3, 22, 1, 4095⟩) ∧
  decode 0x8000000000000000 = .ok .parse ∧
  decode 0xC000000000000000 = .ok .reset ∧
  decode 0x0000000000400000 = .error (.reservedBits .encode) ∧
  decode 0x400001000000019A = .error (.reservedBits .feed)

/-- 30_encoding.md R72 to R76, R103: no bit of a request's operands is dropped or moved.
Log entry 8: the request formats are the spec's decision D2. -/
def Obligations.DecodeOfEncodeIsTheInstruction : Prop :=
  ∀ i : Instr, i.wellFormed = true → decode (encode i) = .ok i

/-- 30_encoding.md R103: a word the decoder takes is the word of what it decodes to.
Log entry 8: the request formats are the spec's decision D2. -/
def Obligations.EncodeOfDecodeIsTheWord : Prop :=
  ∀ (w : BitVec 64) (i : Instr), decode w = .ok i → encode i = w

/-- 30_encoding.md R77, R103: the mask-and-match test and the list of reserved bits agree, and the decoder
rejects exactly the words with a reserved bit set, naming the operation.
Log entry 8: reserved bits and their rejection are the spec's decision D3. -/
def Obligations.DecoderRejectsExactlyReservedBits : Prop :=
  ∀ w : BitVec 64,
    ((w &&& (opOf w).mask = (opOf w).pattern) ↔ reservedClear (opOf w) w = true) ∧
    (decode w = .error (.reservedBits (opOf w)) ↔ reservedClear (opOf w) w = false) ∧
    ((∃ i, decode w = .ok i ∧ i.op = opOf w) ↔ reservedClear (opOf w) w = true)

/-- 30_encoding.md R71, R72, R73, R74: every operand is the number its bits of REQ spell.
Log entry 8: the request formats are the spec's decision D2. -/
def Obligations.OperandsAreTheirBitFields : Prop :=
  ∀ w : BitVec 64,
    (∀ c, decode w = .ok (.encode c) →
      w.toNat / 2 ^ 62 = 0 ∧ c.upd.toNat = w.toNat % 2 ^ 8 ∧ c.mode.toNat = w.toNat / 2 ^ 8 % 2 ^ 4 ∧
      c.fan.toNat = w.toNat / 2 ^ 12 % 2 ^ 4 ∧ c.temp.toNat = w.toNat / 2 ^ 16 % 2 ^ 6 ∧
      c.ton.toNat = w.toNat / 2 ^ 24 % 2 ^ 12 ∧ c.toff.toNat = w.toNat / 2 ^ 36 % 2 ^ 12) ∧
    (∀ lv d, decode w = .ok (.feed lv d) →
      w.toNat / 2 ^ 62 = 1 ∧ d.toNat = w.toNat % 2 ^ 32 ∧ (lv = .H ↔ w.toNat / 2 ^ 32 % 2 = 1)) ∧
    (decode w = .ok .parse → w.toNat / 2 ^ 62 = 2) ∧
    (decode w = .ok .reset → w.toNat / 2 ^ 62 = 3)

/-- 30_encoding.md R100, 60_exceptions.md R233: a line whose operands fit its fields gives the request that
decodes to those operands, and a line with an operand out of range gives none.
Log entry 8: the notation and the check before the port are the spec's decisions D10, D25 and D29. -/
def Obligations.AssemblerLinesGiveTheirOperands : Prop :=
  ∀ busNow : BitVec 424,
    (∀ line : AsmLine, (line.request busNow).isSome = line.wellFormed) ∧
    (∀ (upd mode fan temp ton toff : Nat) (r : Request),
      (AsmLine.encode upd mode fan temp ton toff).request busNow = some r →
        ∃ c, decode r.word = .ok (.encode c) ∧ c.upd.toNat = upd ∧ c.mode.toNat = mode ∧ c.fan.toNat = fan ∧
          c.temp.toNat = temp ∧ c.ton.toNat = ton ∧ c.toff.toNat = toff) ∧
    (∀ (lv : Level) (n : Nat) (r : Request), (AsmLine.feed lv n).request busNow = some r →
      ∃ d, decode r.word = .ok (.feed lv d) ∧ d.toNat = n) ∧
    (∀ (frame : List Nat) (r : Request), (AsmLine.parse frame).request busNow = some r →
      decode r.word = .ok .parse ∧ ∀ k : Fin 53, frame[k.val]? = some (byteOf r.frameIn k).toNat) ∧
    (∀ r : Request, AsmLine.reset.request busNow = some r → decode r.word = .ok .reset)

/-! ## One step -/

/-- 20_memory.md R60, R62: a step accepts the first waiting request and runs the instruction it decodes to.
Log entry 8: one request at a time is the spec's decision D1, and the port's list of requests is log entry
1. -/
def Obligations.StepRunsTheDecodedInstruction : Prop :=
  ∀ (s : State) (r : Request) (rest : List Request) (i : Instr),
    s.waiting = r :: rest → decode r.word = .ok i →
      step s = exec i { s with waiting := rest, frameIn := r.frameIn }

/-- 43_control.md R221: an illegal request performs no operation, whatever the decoder holds; the answer
names its op and drives no bus.
Log entry 8: reserved bits and their answer are the spec's decisions D3 and D4. -/
def Obligations.IllegalRequestOnlyAnswers : Prop :=
  ∀ (s : State) (r : Request) (rest : List Request),
    s.waiting = r :: rest → reservedClear (opOf r.word) r.word = false →
      ∃ rsp : Response, rsp.kind = 7 ∧ rsp.word.extractLsb' 3 2 = r.word.extractLsb' 62 2 ∧
        rsp.word.extractLsb' 5 59 = 0 ∧ rsp.NoBus ∧
        ∀ d : Decoder, step (s.withDec d) =
          .next { dec := d, response := some rsp, waiting := rest, frameIn := r.frameIn }

/-- The model's choice for a step with no request (log entry 2), after 41_decoder.md R172 "it reacts only to
FEED requests" and 60_exceptions.md R246 "It holds its state while powered". -/
def Obligations.StepWithNoRequestHoldsTheState : Prop :=
  ∀ s : State, s.waiting = [] → step s = .next s

/-- 60_exceptions.md R230: every request, legal or not, from every state of the invariant, ends with exactly
one response, and the next request is then first.
Log entry 8: the port's list of requests is log entry 1, the legal forms of a response (R86, R87) are the
spec's decision D4, and the invariant is its derivation. -/
def Obligations.EveryRequestEndsWithOneResponse : Prop :=
  ∀ (s : State) (r : Request) (rest : List Request), s.dec.Inv → s.waiting = r :: rest →
    ∃ (t : State) (rsp : Response), step s = .next t ∧ t.waiting = rest ∧ t.response = some rsp ∧ rsp.Legal

/-- 20_memory.md R60, R62: the block serves every waiting request, one response each, in order.
Log entry 8: one request at a time is the spec's decision D1, and the port's list of requests is log entry
1. -/
def Obligations.AllWaitingRequestsAreServed : Prop :=
  ∀ s : State, s.dec.Inv →
    ∃ (rsps : List (Option Response)) (t : State), trace s.waiting.length s = some (rsps, t) ∧
      rsps.length = s.waiting.length ∧ (∀ r ∈ rsps, r.isSome = true) ∧ t.waiting = [] ∧ t.dec.Inv

/-- 30_encoding.md R86, R87, R90: which kinds there are, which buses each drives, and that DONE, PENDING and
FRAME_COMPLETE carry no detail.
Log entry 8: the response formats are the spec's decision D4. -/
def Obligations.KindDeterminesTheBusesDriven : Prop :=
  ∀ (s t : State) (r : Request) (rest : List Request) (rsp : Response),
    s.waiting = r :: rest → step s = .next t → t.response = some rsp →
      (rsp.kind = 0 ∨ rsp.kind = 1 ∨ rsp.kind = 2 ∨ rsp.kind = 3 ∨ rsp.kind = 4 ∨ rsp.kind = 7) ∧
      (rsp.kind = 1 ∨ rsp.kind = 3 ∨ rsp.kind = 4 ∨ rsp.kind = 7 → rsp.NoBus) ∧
      (rsp.kind = 2 → rsp.cmdOut.isSome ∧ rsp.warnOut.isSome ∧ rsp.rawOut.isSome ∧ rsp.frameOut = none) ∧
      (rsp.kind = 0 →
        (∃ c, decode r.word = .ok (.encode c) ∧ rsp.frameOut.isSome ∧ rsp.cmdOut = none ∧ rsp.warnOut = none ∧
          rsp.rawOut = none) ∨
        (decode r.word = .ok .parse ∧ rsp.cmdOut.isSome ∧ rsp.warnOut.isSome ∧ rsp.rawOut.isSome ∧
          rsp.frameOut = none) ∨
        (decode r.word = .ok .reset ∧ rsp.NoBus)) ∧
      (rsp.kind = 0 ∨ rsp.kind = 1 ∨ rsp.kind = 2 → rsp.word.extractLsb' 3 61 = 0)

/-- 30_encoding.md R88, R89, R90: where each detail stands in the response word, with the stage numbers of
10_state.md R23, the levels of R73, the window ids of R92 and R93 and the op codes of R71 written out.
Log entry 8: the response formats are the spec's decisions D3, D4, D17 and D18. -/
def Obligations.ErrorDetailsStandInTheirBits : Prop :=
  (∀ (st : Stage) (lv : Level) (w : WindowId) (d : Duration),
    let rsp := (Reply.toleranceViolation st lv w d).word
    rsp.extractLsb' 0 3 = 3 ∧
    rsp.extractLsb' 3 3 = (match st with
      | .idle => 0
      | .leaderMark => 1
      | .leaderSpace => 2
      | .syncBit => 3
      | .dataMode => 4) ∧
    rsp.extractLsb' 6 1 = (match lv with
      | .L => 0
      | .H => 1) ∧
    rsp.extractLsb' 7 3 = (match w with
      | .leaderMark => 0
      | .leaderSpace => 1
      | .headerMark => 2
      | .headerSpace => 3
      | .bitMark => 4
      | .bitSpace => 5) ∧
    rsp.extractLsb' 10 32 = d ∧ rsp.extractLsb' 42 22 = 0) ∧
  (∀ (k : BitVec 6) (dv v : Byte),
    let rsp := (Reply.redundancyMismatch k dv v).word
    rsp.extractLsb' 0 3 = 4 ∧ rsp.extractLsb' 3 6 = k ∧ rsp.extractLsb' 9 8 = dv ∧ rsp.extractLsb' 17 8 = v ∧
      rsp.extractLsb' 25 39 = 0) ∧
  (∀ op : Op,
    let rsp := (Reply.illegalRequest op).word
    rsp.extractLsb' 0 3 = 7 ∧
    rsp.extractLsb' 3 2 = (match op with
      | .encode => 0
      | .feed => 1
      | .parse => 2
      | .reset => 3) ∧
    rsp.extractLsb' 5 59 = 0)

/-! ## Power-on and the invariant -/

/-- 70_reset_and_hazards.md R260: power-on gives INIT, no response is pending and no bus holds a value.
Log entry 8: power-on equalling INIT and the INIT values are the spec's decisions D15, D23 and D24. -/
def Obligations.PowerOnStateIsInit : Prop :=
  State.reset.dec.stage.code = 0 ∧ State.reset.dec.carrier = true ∧ State.reset.dec.acc = 0 ∧
  State.reset.dec.nbits = 0 ∧ State.reset.dec.byteIndex = 0 ∧ State.reset.dec.check = false ∧
  (∀ k : Fin 53, State.reset.dec.buf[k] = none) ∧ State.reset.response = none

/-- 10_state.md R31: the power-on state meets the invariant.
Log entry 8: the invariant is the spec's derivation. -/
def Obligations.PowerOnStateMeetsTheInvariant : Prop :=
  State.reset.dec.Inv

/-- 10_state.md R31: every step keeps the invariant, with its item (a) on the stage code.
Log entry 8: the invariant is the spec's derivation. -/
def Obligations.EveryStepKeepsTheInvariant : Prop :=
  ∀ s t : State, s.dec.Inv → step s = .next t → t.dec.Inv ∧ t.dec.stage.code.toNat ≤ 4

/-! ## ENCODE -/

/-- 40_encoder.md R115: ENCODE answers, from every state and for every command, with a frame whose header
bytes are the parameters, whose check bytes are complements, and whose constant positions hold the constants.
Log entry 8: these output invariants are the spec's derivation. -/
def Obligations.EncodeAnswersWithAWellFormedFrame : Prop :=
  ∀ (c : Command) (s : State), ∃ out : BitVec 424,
    exec (.encode c) s = .next { s with response := some ⟨0, none, none, none, some out⟩ } ∧
    (∀ k : Fin 3, byteOf out k = Config.params.preamble[k]) ∧
    (∀ i : Fin 25, byteOf out (2 * i + 4) = ~~~ byteOf out (2 * i + 3)) ∧
    (∀ (i : Fin 25) (b : Byte), rawConst[i] = some b → byteOf out (2 * i + 3) = b)

/-- 30_encoding.md R80, R84, R85: the eight variable bytes of the payload, as numbers.
Log entry 8: the unassigned bits that are 0 are the spec's decision D9, and the temperature's width is its
derivation. -/
def Obligations.EncodePacksTheCommandFields : Prop :=
  ∀ (c : Command) (s t : State) (rsp : Response) (out : BitVec 424),
    exec (.encode c) s = .next t → t.response = some rsp → rsp.frameOut = some out →
      let raw := fun i : Nat => byteOf out (2 * i + 3)
      raw 4 = c.upd ∧
      (raw 5).toNat = 4 * c.temp.toNat ∧
      (raw 7).toNat = 16 * (c.toff.toNat % 16) ∧
      (raw 8).toNat = c.toff.toNat / 16 ∧
      (raw 9).toNat = c.ton.toNat % 256 ∧
      (raw 10).toNat = c.ton.toNat / 256 + (if c.toff = 0 then 0 else 16) + (if c.ton = 0 then 0 else 32) ∧
      (raw 11).toNat = 16 * c.fan.toNat + (modeNibble Config.params c.mode).toNat ∧
      raw 12 = modeClass Config.params c.mode

/-- 30_encoding.md R82, R83: OFF is sent with HEATING's nibble, and the class byte is a function of the mode
in which only 0xE1 stands for OFF. -/
def Obligations.EncodeSendsOffAsHeatingWithClassE1 : Prop :=
  ∀ (c : Command) (s t : State) (rsp : Response) (out : BitVec 424),
    exec (.encode c) s = .next t → t.response = some rsp → rsp.frameOut = some out →
      let nibble := (byteOf out 25).extractLsb' 0 4
      let cls := byteOf out 27
      (c.mode = Config.params.modeOff → nibble = Config.params.modeHeating ∧ cls = 0xE1) ∧
      (c.mode ≠ Config.params.modeOff → nibble = c.mode) ∧
      (c.mode = Config.params.modeHeating ∨ c.mode = Config.params.modeCooling → cls = 0xF1) ∧
      (c.mode ≠ Config.params.modeOff → c.mode ≠ Config.params.modeHeating →
        c.mode ≠ Config.params.modeCooling → cls = 0xF0)

/-- 10_state.md R36: ENCODE and PARSE neither read nor write the decoder state, and they change nothing but
the response port. -/
def Obligations.EncodeAndParseDoNotTouchTheDecoder : Prop :=
  ∀ (i : Instr) (s : State), i.op = .encode ∨ i.op = .parse →
    ∃ rsp : Response, ∀ d : Decoder,
      exec i (s.withDec d) = .next { s with dec := d, response := some rsp }

/-! ## PARSE -/

/-- 42_parser.md R193, R194, R195: PARSE answers, from every state and for every FRAME_IN, with the command
its data bytes spell and with those bytes.
Log entry 8: the readings of D19, D20 and D22 are the spec's decisions. -/
def Obligations.ParseReconstructsTheCommand : Prop :=
  ∀ s : State, ∃ (cmd : BitVec 48) (warn : BitVec 25) (raw : BitVec 200),
    exec .parse s = .next { s with response := some ⟨0, some cmd, some warn, some raw, none⟩ } ∧
    let r := fun i : Nat => byteOf s.frameIn (2 * i + 3)
    cmd.extractLsb' 0 8 = r 4 ∧
    (cmd.extractLsb' 16 6).toNat = (r 5).toNat / 4 ∧
    (cmd.extractLsb' 12 4).toNat = (r 11).toNat / 16 ∧
    (cmd.extractLsb' 36 12).toNat = (r 8).toNat * 16 + (r 7).toNat / 16 ∧
    (cmd.extractLsb' 24 12).toNat = (r 10).toNat % 16 * 256 + (r 9).toNat ∧
    (r 12 = 0xE1 → cmd.extractLsb' 8 4 = Config.params.modeOff) ∧
    (r 12 ≠ 0xE1 → (cmd.extractLsb' 8 4).toNat = (r 11).toNat % 16) ∧
    cmd.extractLsb' 22 2 = 0 ∧
    ∀ i : Fin 25, byteOf raw i = r i

/-- 42_parser.md R196, R197: a payload byte is warned about exactly where ENCODE of the parsed command would
write another byte; at a constant position that byte is the constant.
Log entry 8: warnings at variable positions are the spec's decision D21. -/
def Obligations.ParseWarnsWhereReencodingDiffers : Prop :=
  ∀ (s t u : State) (rsp rsp' : Response) (cmd : BitVec 48) (warn : BitVec 25) (out : BitVec 424),
    exec .parse s = .next t → t.response = some rsp → rsp.cmdOut = some cmd → rsp.warnOut = some warn →
    exec (.encode (Command.unpack cmd)) t = .next u → u.response = some rsp' → rsp'.frameOut = some out →
      (∀ i : Fin 25, warn.getLsbD i = true ↔ byteOf s.frameIn (2 * i + 3) ≠ byteOf out (2 * i + 3)) ∧
      (∀ (i : Fin 25) (b : Byte), rawConst[i] = some b →
        (warn.getLsbD i = true ↔ byteOf s.frameIn (2 * i + 3) ≠ b))

/-- 42_parser.md R197: the cases in which a variable position is warned about, and the three positions that
never are.
Log entry 8: warnings at variable positions are the spec's decision D21. -/
def Obligations.VariablePositionsWarnInTheListedCases : Prop :=
  ∀ (s t : State) (rsp : Response) (cmd : BitVec 48) (warn : BitVec 25),
    exec .parse s = .next t → t.response = some rsp → rsp.cmdOut = some cmd → rsp.warnOut = some warn →
      let r := fun i : Nat => byteOf s.frameIn (2 * i + 3)
      let c := Command.unpack cmd
      warn.getLsbD 4 = false ∧ warn.getLsbD 8 = false ∧ warn.getLsbD 9 = false ∧
      (warn.getLsbD 5 = true ↔ (r 5).toNat % 4 ≠ 0) ∧
      (warn.getLsbD 7 = true ↔ (r 7).toNat % 16 ≠ 0) ∧
      (warn.getLsbD 10 = true ↔ (r 10).toNat / 64 ≠ 0 ∨ (((r 10).getLsbD 4 = true) ↔ c.toff = 0) ∨
        (((r 10).getLsbD 5 = true) ↔ c.ton = 0)) ∧
      (warn.getLsbD 11 = true ↔
        c.mode = Config.params.modeOff ∧ (r 11).extractLsb' 0 4 ≠ Config.params.modeHeating) ∧
      (warn.getLsbD 12 = true ↔ r 12 ≠ modeClass Config.params c.mode)

/-- 42_parser.md R191: the parser reads only the data bytes; header and complement bytes have no effect. -/
def Obligations.ParseReadsOnlyTheDataBytes : Prop :=
  ∀ (s : State) (a b : BitVec 424),
    (∀ i : Fin 25, byteOf a (2 * i + 3) = byteOf b (2 * i + 3)) →
      ∃ rsp : Response, exec .parse { s with frameIn := a } = .next { s with frameIn := a, response := some rsp } ∧
        exec .parse { s with frameIn := b } = .next { s with frameIn := b, response := some rsp }

/-- 40_encoder.md R116: PARSE of the frame ENCODE drives gives back the command and no warning.
Log entry 8: the round trip is the spec's derivation. -/
def Obligations.ParseOfEncodeIsTheCommand : Prop :=
  ∀ (c : Command) (s t : State) (rsp : Response) (out : BitVec 424),
    exec (.encode c) s = .next t → t.response = some rsp → rsp.frameOut = some out →
      ∃ raw : BitVec 200, (∀ i : Fin 25, byteOf raw i = byteOf out (2 * i + 3)) ∧
        exec .parse { t with frameIn := out } =
          .next { t with frameIn := out, response := some ⟨0, some c.pack, some 0, some raw, none⟩ }

/-- 42_parser.md R199: a payload with no warning is, byte for byte, what its parsed command encodes to.
Log entry 8: this direction of the round trip is the spec's derivation. -/
def Obligations.WarningFreePayloadReencodesToItself : Prop :=
  ∀ (s t u : State) (rsp rsp' : Response) (cmd : BitVec 48) (out : BitVec 424),
    exec .parse s = .next t → t.response = some rsp → rsp.cmdOut = some cmd → rsp.warnOut = some 0 →
    exec (.encode (Command.unpack cmd)) t = .next u → u.response = some rsp' → rsp'.frameOut = some out →
      ∀ i : Fin 25, byteOf out (2 * i + 3) = byteOf s.frameIn (2 * i + 3)

/-- 42_parser.md R200 (a): the frame of 53 zero bytes, for every value of the parameters.
Log entry 8: the corner case is the spec's derivation. -/
def Obligations.ParseOfTheZeroFrame : Prop :=
  ∀ (s t : State) (rsp : Response), s.frameIn = 0 → exec .parse s = .next t → t.response = some rsp →
    rsp.cmdOut = some 0 ∧
    (Config.params.modeOff = 0 → rsp.warnOut = some 0x1E7980F) ∧
    (Config.params.modeOff ≠ 0 → rsp.warnOut = some 0x1E7900F)

/-! ## FEED -/

/-- 30_encoding.md R92, 00_scope.md R14: the windows, both ends inside.
Log entry 8: that the ends are inside is the spec's decision D11. -/
def Obligations.WindowsAreClosedIntervals : Prop :=
  ∀ (lv : Level) (d : Duration),
    (WindowId.leaderMark.fits lv d = true ↔ lv = .L ∧ 28000 ≤ d.toNat ∧ d.toNat ≤ 31000) ∧
    (WindowId.leaderSpace.fits lv d = true ↔ lv = .H ∧ 48000 ≤ d.toNat ∧ d.toNat ≤ 51000) ∧
    (WindowId.headerMark.fits lv d = true ↔ lv = .L ∧ 3300 ≤ d.toNat ∧ d.toNat ≤ 3500) ∧
    (WindowId.headerSpace.fits lv d = true ↔ lv = .H ∧ 1600 ≤ d.toNat ∧ d.toNat ≤ 1700) ∧
    (WindowId.bitMark.fits lv d = true ↔ lv = .L ∧ 400 ≤ d.toNat ∧ d.toNat ≤ 470) ∧
    (WindowId.bitSpace.fits lv d = true ↔
      lv = .H ∧ ((390 ≤ d.toNat ∧ d.toNat ≤ 450) ∨ (1230 ≤ d.toNat ∧ d.toNat ≤ 1290))) ∧
    (isBit false d = true ↔ 390 ≤ d.toNat ∧ d.toNat ≤ 450) ∧
    (isBit true d = true ↔ 1230 ≤ d.toNat ∧ d.toNat ≤ 1290)

/-- 41_decoder.md R141: in Idle a high level of any duration is ignored.
Log entry 8: that every high level is ignored is the spec's decision D13. -/
def Obligations.IdleIgnoresHighLevels : Prop :=
  ∀ (s : State) (d : Duration), s.dec.stage = .idle →
    exec (.feed .H d) s = .next { s with response := some (bareResponse .pending) }

/-- 41_decoder.md R142, R144, R145, R146: in each preamble stage the expected event moves the decoder on, and
the stage is the only field written.
Log entry 8: the fields at the entry to DataMode and the closed windows are the spec's decisions D11 and
D15. -/
def Obligations.PreambleEventsAdvanceTheStage : Prop :=
  ∀ (s : State) (d : Duration),
    (s.dec.stage = .idle → 28000 ≤ d.toNat → d.toNat ≤ 31000 → exec (.feed .L d) s =
      .next { s with dec := { s.dec with stage := .leaderMark }, response := some (bareResponse .pending) }) ∧
    (s.dec.stage = .leaderMark → 48000 ≤ d.toNat → d.toNat ≤ 51000 → exec (.feed .H d) s =
      .next { s with dec := { s.dec with stage := .leaderSpace }, response := some (bareResponse .pending) }) ∧
    (s.dec.stage = .leaderSpace → 3300 ≤ d.toNat → d.toNat ≤ 3500 → exec (.feed .L d) s =
      .next { s with dec := { s.dec with stage := .syncBit }, response := some (bareResponse .pending) }) ∧
    (s.dec.stage = .syncBit → 1600 ≤ d.toNat → d.toNat ≤ 1700 → exec (.feed .H d) s =
      .next { s with dec := { s.dec with stage := .dataMode }, response := some (bareResponse .pending) })

/-- 41_decoder.md R146, 10_state.md R31 (b): DataMode begins with every other field at its INIT value.
Log entry 8: the fields at the entry to DataMode are the spec's decision D15. -/
def Obligations.DataModeBeginsFromInitFields : Prop :=
  ∀ (s t : State) (lv : Level) (d : Duration), s.dec.Inv → s.dec.stage = .syncBit →
    exec (.feed lv d) s = .next t → t.dec.stage = .dataMode →
      t.dec.carrier = true ∧ t.dec.acc = 0 ∧ t.dec.nbits = 0 ∧ t.dec.byteIndex = 0 ∧ t.dec.check = false ∧
        ∀ k : Fin 53, t.dec.buf[k] = none

/-- 60_exceptions.md R232, 41_decoder.md R171: an event that does not fit is answered TOLERANCE_VIOLATION with
the stage, the level, the duration and the window tested, and the decoder is at INIT, whatever it held;
no other event is answered so.
Log entry 8: the list of causes is the spec's derivation, and the level checks and the consumed event are
its decisions D13, D14 and D16. -/
def Obligations.ToleranceViolationExactlyOnAMisfit : Prop :=
  ∀ (s : State) (lv : Level) (d : Duration),
    (¬ s.dec.Takes lv d → exec (.feed lv d) s =
      .next { s with dec := Decoder.init,
                     response := some (bareResponse (.toleranceViolation s.dec.stage lv s.dec.expects d)) }) ∧
    (s.dec.Takes lv d → ∀ (t : State) (rsp : Response), exec (.feed lv d) s = .next t →
      t.response = some rsp → rsp.kind ≠ 3)

/-- 41_decoder.md R174: PENDING only for a high level in Idle or an event that fits the window expected.
Log entry 8: the property is the spec's derivation. -/
def Obligations.PendingOnlyWhenTheEventIsTaken : Prop :=
  ∀ (s t : State) (lv : Level) (d : Duration) (rsp : Response),
    exec (.feed lv d) s = .next t → t.response = some rsp → rsp.kind = 1 → s.dec.Takes lv d

/-- 41_decoder.md R148: the mark of a bit carries no value and writes `carrier` alone.
Log entry 8: the closed window is the spec's decision D11. -/
def Obligations.BitMarkClearsCarrier : Prop :=
  ∀ (s : State) (d : Duration), s.dec.stage = .dataMode → s.dec.carrier = true →
    400 ≤ d.toNat → d.toNat ≤ 470 →
      exec (.feed .L d) s =
        .next { s with dec := { s.dec with carrier := false }, response := some (bareResponse .pending) }

/-- 41_decoder.md R149, R160: a space below the eighth bit is placed at bit `nbits` of `acc`.
Log entry 8: the closed windows are the spec's decision D11. -/
def Obligations.BitSpaceAccumulatesLsbFirst : Prop :=
  ∀ (s : State) (d : Duration) (b : Bool), s.dec.stage = .dataMode → s.dec.carrier = false →
    s.dec.nbits.toNat < 7 → isBit b d = true →
      ∃ acc : Byte, (∀ j : Fin 8, acc.getLsbD j =
          (s.dec.acc.getLsbD j || (decide (j.val = s.dec.nbits.toNat) && b))) ∧
        exec (.feed .H d) s =
          .next { s with dec := { s.dec with carrier := true, acc := acc, nbits := s.dec.nbits + 1 },
                         response := some (bareResponse .pending) }

/-- 41_decoder.md R161, R162, R163: the eighth bit of a header byte or of a data byte stores the byte, whatever
its value. -/
def Obligations.HeaderAndDataBytesAreStored : Prop :=
  ∀ (s : State) (d : Duration) (b : Bool) (v : Byte), s.dec.Completes b v → isBit b d = true →
    (s.dec.byteIndex.toNat < 3 → exec (.feed .H d) s =
      .next { s with
        dec := { s.dec with carrier := true, acc := 0, nbits := 0, byteIndex := s.dec.byteIndex + 1,
                            buf := s.dec.buf.setIfInBounds s.dec.byteIndex.toNat (some v) }
        response := some (bareResponse .pending) }) ∧
    (3 ≤ s.dec.byteIndex.toNat → s.dec.byteIndex.toNat < 53 → s.dec.check = false → exec (.feed .H d) s =
      .next { s with
        dec := { s.dec with carrier := true, acc := 0, nbits := 0, byteIndex := s.dec.byteIndex + 1, check := true,
                            buf := s.dec.buf.setIfInBounds s.dec.byteIndex.toNat (some v) }
        response := some (bareResponse .pending) })

/-- 41_decoder.md R164, R167: a check byte that is the complement of the data byte before it is stored. -/
def Obligations.PassingCheckByteIsStored : Prop :=
  ∀ (s : State) (d : Duration) (b : Bool) (v dv : Byte), s.dec.Completes b v → isBit b d = true →
    3 ≤ s.dec.byteIndex.toNat → s.dec.byteIndex.toNat < 52 → s.dec.check = true →
    readCell s.dec.buf (s.dec.byteIndex.toNat - 1) = some dv → v = ~~~ dv →
      exec (.feed .H d) s =
        .next { s with
          dec := { s.dec with carrier := true, acc := 0, nbits := 0, byteIndex := s.dec.byteIndex + 1,
                              check := false,
                              buf := s.dec.buf.setIfInBounds s.dec.byteIndex.toNat (some v) }
          response := some (bareResponse .pending) }

/-- 41_decoder.md R165: a check byte that is not the complement is answered REDUNDANCY_MISMATCH with its
position and both bytes, and the decoder is at INIT.
Log entry 8: the mismatch's details are the spec's decisions D17 and D18. -/
def Obligations.FailingCheckByteIsAMismatch : Prop :=
  ∀ (s : State) (d : Duration) (b : Bool) (v dv : Byte), s.dec.Completes b v → isBit b d = true →
    3 ≤ s.dec.byteIndex.toNat → s.dec.byteIndex.toNat < 53 → s.dec.check = true →
    readCell s.dec.buf (s.dec.byteIndex.toNat - 1) = some dv → v ≠ ~~~ dv →
      exec (.feed .H d) s =
        .next { s with dec := Decoder.init,
                       response := some (bareResponse (.redundancyMismatch s.dec.byteIndex dv v)) }

/-- 41_decoder.md R168: the check byte at position 52 completes the frame: the decoder is at INIT and the
response drives what PARSE of the assembled frame drives, as kind FRAME_COMPLETE.
Log entry 8: the buses driven are the spec's decision D22. -/
def Obligations.LastCheckByteCompletesTheFrame : Prop :=
  ∀ (s u : State) (d : Duration) (b : Bool) (f : Frame) (rsp : Response),
    s.dec.Completes b f[52] → isBit b d = true → s.dec.byteIndex = 52 → s.dec.check = true →
    (∀ k : Fin 52, readCell s.dec.buf k = some f[k.val]) → f[52] = ~~~ f[51] →
    exec .parse { s with frameIn := busOf f } = .next u → u.response = some rsp →
      exec (.feed .H d) s = .next { s with dec := Decoder.init, response := some { rsp with word := 2 } }

/-- 41_decoder.md R169: FRAME_COMPLETE is answered only on the last bit of the 53rd byte, with every earlier
check passed and this one passing.
Log entry 8: the property is the spec's derivation. -/
def Obligations.FrameCompletesOnlyWithAllChecksPassed : Prop :=
  ∀ (s t : State) (lv : Level) (d : Duration) (rsp : Response), s.dec.Inv →
    exec (.feed lv d) s = .next t → t.response = some rsp → rsp.kind = 2 →
      ∃ (b : Bool) (f : Frame), lv = .H ∧ isBit b d = true ∧ s.dec.Completes b f[52] ∧ s.dec.byteIndex = 52 ∧
        (∀ k : Fin 52, readCell s.dec.buf k = some f[k.val]) ∧ Frame.Paired f ∧ t.dec = Decoder.init

/-- 41_decoder.md R169, 30_encoding.md R94: from INIT no FRAME_COMPLETE comes within 851 requests.
Log entry 8: the count of 852 events is the spec's derivation. -/
def Obligations.NoFrameCompletesBefore852Requests : Prop :=
  ∀ (s t : State) (n : Nat) (rsps : List (Option Response)) (rsp : Response),
    s.dec = Decoder.init → n ≤ s.waiting.length → n ≤ 851 → trace n s = some (rsps, t) →
      some rsp ∈ rsps → rsp.kind ≠ 2

/-- 41_decoder.md R140, 20_memory.md R59: from every state of the invariant FEED answers with one of its four
kinds, and writes nothing but the decoder record and the response.
Log entry 8: the result widths are the spec's decision D4, and the invariant its derivation. -/
def Obligations.FeedAnswersFromEveryInvariantState : Prop :=
  ∀ (s : State) (lv : Level) (d : Duration), s.dec.Inv →
    ∃ (dec : Decoder) (rsp : Response),
      exec (.feed lv d) s = .next { s with dec := dec, response := some rsp } ∧
        (rsp.kind = 1 ∨ rsp.kind = 2 ∨ rsp.kind = 3 ∨ rsp.kind = 4)

/-- 41_decoder.md R173: FEED's response and next decoder state depend on the decoder state and the event alone.
Log entry 8: the property is the spec's derivation. -/
def Obligations.FeedDependsOnDecoderAndEventAlone : Prop :=
  ∀ (s s' t : State) (lv : Level) (d : Duration), s.dec = s'.dec → exec (.feed lv d) s = .next t →
    exec (.feed lv d) s' = .next { s' with dec := t.dec, response := t.response }

/-- 41_decoder.md R150: in DataMode an accepted event inverts `carrier`; marks and spaces alternate.
Log entry 8: the alternation is the spec's derivation. -/
def Obligations.AcceptedDataModeEventInvertsCarrier : Prop :=
  ∀ (s t : State) (lv : Level) (d : Duration) (rsp : Response), s.dec.stage = .dataMode →
    exec (.feed lv d) s = .next t → t.response = some rsp → rsp.kind = 1 →
      t.dec.stage = .dataMode ∧ t.dec.carrier = !s.dec.carrier ∧
        (s.dec.carrier = true ↔ lv = .L)

/-- 41_decoder.md R176: the source's boundary durations.
Log entry 8: the boundaries are the spec's derivation, with its decision D11. -/
def Obligations.BoundaryDurationsAcceptAndReject : Prop :=
  ∀ s : State, s.dec.stage = .dataMode →
    (s.dec.carrier = true →
      (∀ d ∈ ([469, 470] : List Duration), exec (.feed .L d) s =
        .next { s with dec := { s.dec with carrier := false }, response := some (bareResponse .pending) }) ∧
      exec (.feed .L 471) s = .next { s with
        dec := Decoder.init
        response := some (bareResponse (.toleranceViolation .dataMode .L .bitMark 471)) }) ∧
    (s.dec.carrier = false →
      (∀ d ∈ ([1289, 1290] : List Duration), exec (.feed .H d) s = exec (.feed .H 1258) s) ∧
      exec (.feed .H 1291) s = .next { s with
        dec := Decoder.init
        response := some (bareResponse (.toleranceViolation .dataMode .H .bitSpace 1291)) })

/-! ## Transmissions -/

/-- 41_decoder.md R178 for every byte, 20_memory.md R55: the sixteen events of a header byte, bit 0 first,
store that byte.
Log entry 8: the bit order example is the spec's derivation. -/
def Obligations.FeedByteStoresAHeaderByte : Prop :=
  ∀ (s : State) (v : Byte) (rs rest : List Request),
    s.waiting = rs ++ rest → wordsAre rs (feedByte v) → s.dec.stage = .dataMode → s.dec.carrier = true →
    s.dec.acc = 0 → s.dec.nbits = 0 → s.dec.byteIndex.toNat < 3 →
      ∃ t : State, trace 16 s = some (List.replicate 16 (some (bareResponse .pending)), t) ∧ t.waiting = rest ∧
        t.dec = { s.dec with byteIndex := s.dec.byteIndex + 1,
                             buf := s.dec.buf.setIfInBounds s.dec.byteIndex.toNat (some v) }

/-- 41_decoder.md R175: from INIT the reference transmission of any frame with passing checks gives 851 PENDING
responses and then FRAME_COMPLETE with what PARSE of that frame drives, and leaves the decoder at INIT.
Log entry 8: the property over every frame is the spec's derivation. -/
def Obligations.ReferenceTransmissionDecodes : Prop :=
  ∀ (s u : State) (f : Frame) (rs rest : List Request) (rsp : Response),
    Frame.Paired f → s.dec = Decoder.init → s.waiting = rs ++ rest → wordsAre rs (send f) →
    exec .parse { s with frameIn := busOf f } = .next u → u.response = some rsp →
      ∃ t : State, trace 852 s =
          some (List.replicate 851 (some (bareResponse .pending)) ++ [some { rsp with word := 2 }], t) ∧
        t.waiting = rest ∧ t.dec = Decoder.init

/-- 41_decoder.md R175, 40_encoder.md R116: a command that ENCODE sends and the reference transmission carries
comes out of the decoder as itself, with no warning.
Log entry 8: the property is the spec's derivation. -/
def Obligations.EncodedCommandSurvivesTheWire : Prop :=
  ∀ (c : Command) (s0 t0 s : State) (rsp0 : Response) (out : BitVec 424) (rs rest : List Request),
    exec (.encode c) s0 = .next t0 → t0.response = some rsp0 → rsp0.frameOut = some out →
    s.dec = Decoder.init → s.waiting = rs ++ rest → wordsAre rs (send (frameOfBus out)) →
      ∃ (t : State) (raw : BitVec 200), trace 852 s =
          some (List.replicate 851 (some (bareResponse .pending)) ++ [some ⟨2, some c.pack, some 0, some raw, none⟩], t) ∧
        t.waiting = rest ∧ t.dec = Decoder.init

/-- 41_decoder.md R179, R175: after any mismatch or violation the next reference transmission of any frame with
passing checks gives 851 PENDING responses and then FRAME_COMPLETE with what PARSE of that frame drives, and
leaves the decoder at INIT.
Log entry 8: the property is the spec's derivation. -/
def Obligations.TransmissionAfterAnErrorDecodes : Prop :=
  ∀ (s s1 u : State) (r : Request) (f : Frame) (rs rest : List Request) (rsp1 rsp : Response),
    s.waiting = r :: (rs ++ rest) → step s = .next s1 → s1.response = some rsp1 →
    rsp1.kind = 3 ∨ rsp1.kind = 4 → Frame.Paired f → wordsAre rs (send f) →
    exec .parse { s1 with frameIn := busOf f } = .next u → u.response = some rsp →
      ∃ t : State, trace 852 s1 =
          some (List.replicate 851 (some (bareResponse .pending)) ++ [some { rsp with word := 2 }], t) ∧
        t.waiting = rest ∧ t.dec = Decoder.init

/-- 70_reset_and_hazards.md R264: started in the middle of a transmission, the decoder ignores every high event
and rejects every low event at stage 0 until the next leader mark; the next reference transmission of any frame
with passing checks then decodes as from INIT: 851 PENDING responses, then FRAME_COMPLETE with what PARSE of
that frame drives, and the decoder at INIT.
Log entry 8: the property is the spec's derivation. -/
def Obligations.StartingMidStreamDecodesTheNextFrame : Prop :=
  ∀ (s u : State) (noise : List (Level × Duration)) (f : Frame) (ns rs rest : List Request) (rsp : Response),
    s.dec = Decoder.init → s.waiting = ns ++ (rs ++ rest) →
    wordsAre ns (noise.map fun e => .feed e.1 e.2) →
    (∀ e ∈ noise, WindowId.leaderMark.fits e.1 e.2 = false) → Frame.Paired f → wordsAre rs (send f) →
    exec .parse { s with frameIn := busOf f } = .next u → u.response = some rsp →
      ∃ s1 t : State,
        trace noise.length s = some (noise.map (fun e => some (match e.1 with
          | .H => bareResponse .pending
          | .L => bareResponse (.toleranceViolation .idle .L .leaderMark e.2))), s1) ∧
        s1.dec = Decoder.init ∧
        trace 852 s1 =
          some (List.replicate 851 (some (bareResponse .pending)) ++ [some { rsp with word := 2 }], t) ∧
        t.waiting = rest ∧ t.dec = Decoder.init

/-- 70_reset_and_hazards.md R275: with the polarity inverted no frame ever leaves stage 0.
Log entry 8: the property is the spec's derivation. -/
def Obligations.InvertedPolarityNeverLeavesIdle : Prop :=
  ∀ (s : State) (f : Frame) (rs rest : List Request) (n : Nat), s.dec = Decoder.init → s.waiting = rs ++ rest →
    wordsAre rs ((send f).map fun i => match i with
      | .feed .L d => .feed .H d
      | .feed .H d => .feed .L d
      | .encode c => .encode c
      | .parse => .parse
      | .reset => .reset) → n ≤ 852 →
      ∃ (rsps : List (Option Response)) (t : State), trace n s = some (rsps, t) ∧ t.dec = Decoder.init

/-- 30_encoding.md R94, 70_reset_and_hazards.md R282: a transmission is 852 events and lasts the stated time.
Log entry 8: the air time is the spec's derivation. -/
def Obligations.TransmissionLengthAndAirTime : Prop :=
  ∀ f : Frame,
    let n1 := (f.toList.flatMap fun v => (List.range 8).map fun j => v.getLsbD j).count true
    (send f).length = 852 ∧ n1 ≤ 424 ∧ airTime (send f) = 84080 + 424 * 410 + 424 * (424 - n1) + 1258 * n1

/-! ## RESET and the life of the decoder state -/

/-- 43_control.md R220: RESET answers DONE from every state and sets every decoder field to its INIT value.
Log entry 8: RESET as a request and the INIT values are the spec's decisions D15, D23 and D24. -/
def Obligations.ResetSetsEveryDecoderField : Prop :=
  ∀ s : State, exec .reset s =
    .next { s with
      dec := { stage := .idle, carrier := true, acc := 0, nbits := 0, byteIndex := 0, check := false,
               buf := Vector.replicate 53 none }
      response := some ⟨0, none, none, none, none⟩ }

/-- 20_memory.md R61: ENCODE, PARSE and RESET are idempotent; FEED is not.
Log entry 8: the property is the spec's derivation. -/
def Obligations.AllButFeedAreIdempotent : Prop :=
  (∀ (i : Instr) (s t : State), i.op ≠ .feed → exec i s = .next t → exec i t = .next t) ∧
  (∃ (lv : Level) (d : Duration) (s t : State), s.dec.Inv ∧ exec (.feed lv d) s = .next t ∧
    exec (.feed lv d) t ≠ .next t)

/-- 10_state.md R35: the decoder becomes INIT at a RESET, at a frame's completion and at either error, and at no
other time.
Log entry 8: RESET's place among these events is the spec's decision D24. -/
def Obligations.DecoderBecomesInitOnlyAtTheListedEvents : Prop :=
  ∀ (s t : State) (r : Request) (rest : List Request) (rsp : Response),
    s.waiting = r :: rest → step s = .next t → t.response = some rsp →
      ((decode r.word = .ok .reset ∨ rsp.kind = 2 ∨ rsp.kind = 3 ∨ rsp.kind = 4) → t.dec = Decoder.init) ∧
      (s.dec ≠ Decoder.init → t.dec = Decoder.init →
        decode r.word = .ok .reset ∨ rsp.kind = 2 ∨ rsp.kind = 3 ∨ rsp.kind = 4)

/-- 70_reset_and_hazards.md R276, 10_state.md R36, R37: taking out of a sequence of requests every ENCODE, every
PARSE and every illegal request changes neither the decoder nor the responses to the others.
Log entry 8: the property is the spec's derivation, with its decision D3. -/
def Obligations.InterleavedRequestsDoNotDisturbTheDecode : Prop :=
  ∀ (s t : State) (rs : List Request) (rsps : List (Option Response)),
    trace rs.length (s.withRequests rs) = some (rsps, t) →
      ∃ t' : State, t'.dec = t.dec ∧
        trace (rs.filter Request.touchesDecoder).length (s.withRequests (rs.filter Request.touchesDecoder)) =
          some (((rs.zip rsps).filter fun p => p.1.touchesDecoder).map Prod.snd, t')

/-! ## The numbers of a violation -/

/-- 60_exceptions.md R232, 30_encoding.md R88: each condition of the table is answered with its stage and its
window id as the table numbers them, with the level and the duration observed and no bus, and the decoder is at
INIT.
Log entry 8: the table of causes is the spec's derivation, and the response format, the level checks and the
consumed event are its decisions D4, D13, D14, D16 and D17. -/
def Obligations.ViolationsCarryTheNumbersOfTheTable : Prop :=
  ∀ (s : State) (lv : Level) (d : Duration),
    let reports := fun stage window : BitVec 3 => ∃ rsp : Response,
      exec (.feed lv d) s = .next { s with dec := Decoder.init, response := some rsp } ∧
      rsp.word.extractLsb' 0 3 = 3 ∧ rsp.word.extractLsb' 3 3 = stage ∧
      rsp.word.extractLsb' 6 1 = (if lv = .H then 1 else 0) ∧ rsp.word.extractLsb' 7 3 = window ∧
      rsp.word.extractLsb' 10 32 = d ∧ rsp.word.extractLsb' 42 22 = 0 ∧ rsp.NoBus
    (s.dec.stage = .idle → lv = .L → ¬ (28000 ≤ d.toNat ∧ d.toNat ≤ 31000) → reports 0 0) ∧
    (s.dec.stage = .leaderMark → lv = .L ∨ ¬ (48000 ≤ d.toNat ∧ d.toNat ≤ 51000) → reports 1 1) ∧
    (s.dec.stage = .leaderSpace → lv = .H ∨ ¬ (3300 ≤ d.toNat ∧ d.toNat ≤ 3500) → reports 2 2) ∧
    (s.dec.stage = .syncBit → lv = .L ∨ ¬ (1600 ≤ d.toNat ∧ d.toNat ≤ 1700) → reports 3 3) ∧
    (s.dec.stage = .dataMode → s.dec.carrier = true →
      lv = .H ∨ ¬ (400 ≤ d.toNat ∧ d.toNat ≤ 470) → reports 4 4) ∧
    (s.dec.stage = .dataMode → s.dec.carrier = false →
      lv = .L ∨ ¬ ((390 ≤ d.toNat ∧ d.toNat ≤ 450) ∨ (1230 ≤ d.toNat ∧ d.toNat ≤ 1290)) → reports 4 5)
end

