-- ==== Sys2Proof/Laws/Bytes.lean ====
section
/-! SUPPORT. The wide buses, the warning mask and the frame buffer, byte by byte and bit by bit. -/

namespace Sys2Proof

theorem bytesToNat_lt : ∀ l : List Byte, bytesToNat l < 2 ^ (8 * l.length)
  | [] => by simp [bytesToNat]
  | b :: bs => by
    have h := bytesToNat_lt bs
    have hb := b.isLt
    simp only [bytesToNat, List.length_cons, Nat.mul_add, Nat.mul_one, pow_add]
    omega

theorem bytesToNat_digit : ∀ (l : List Byte) (k : Nat) (h : k < l.length),
    bytesToNat l / 2 ^ (8 * k) % 256 = l[k].toNat
  | b :: bs, 0, _ => by
    have hb := b.isLt
    simp only [bytesToNat, Nat.mul_zero, pow_zero, Nat.div_one, List.getElem_cons_zero]
    omega
  | b :: bs, k + 1, h => by
    have hb := b.isLt
    have hd : (b.toNat + 256 * bytesToNat bs) / 256 = bytesToNat bs := by omega
    rw [List.getElem_cons_succ, ← bytesToNat_digit bs k (by simpa using h), bytesToNat,
      show 8 * (k + 1) = 8 + 8 * k by ring, pow_add, ← Nat.div_div_eq_div_mul]
    norm_num [hd]

theorem toNat_byteOf {w : Nat} (bus : BitVec w) (k : Nat) :
    (byteOf bus k).toNat = bus.toNat / 2 ^ (8 * k) % 256 := by
  simp [byteOf, BitVec.extractLsb'_toNat, Nat.shiftRight_eq_div_pow]

theorem toNat_busOf {n : Nat} (v : Vector Byte n) : (busOf v).toNat = bytesToNat v.toList := by
  have h := bytesToNat_lt v.toList
  rw [busOf, BitVec.toNat_ofNat, Nat.mod_eq_of_lt (by simpa using h)]

/-- Byte `k` of the bus a vector of bytes drives is byte `k` of the vector. -/
theorem byteOf_busOf {n : Nat} (v : Vector Byte n) (k : Nat) (h : k < n) : byteOf (busOf v) k = v[k] := by
  apply BitVec.eq_of_toNat_eq
  rw [toNat_byteOf, toNat_busOf, bytesToNat_digit v.toList k (by simpa using h)]
  simp

theorem frameOfBus_busOf (f : Frame) : frameOfBus (busOf f) = f := by
  apply Vector.ext
  intro k hk
  simp only [frameOfBus, Vector.getElem_ofFn]
  exact byteOf_busOf f k hk

theorem xor_ff_eq_not (b : Byte) : b ^^^ 0xFF = ~~~ b := by
  apply BitVec.eq_of_getLsbD_eq
  intro j hj
  interval_cases j <;> simp

end Sys2Proof

namespace Sys2Proof.Machine

theorem bitsToNat_testBit : ∀ (l : List Bool) (i : Nat), (bitsToNat l).testBit i = (l[i]?).getD false
  | [], i => by simp [bitsToNat]
  | b :: bs, 0 => by cases b <;> simp [bitsToNat, Nat.testBit_zero]
  | b :: bs, i + 1 => by
    rw [bitsToNat, Nat.testBit_succ, List.getElem?_cons_succ, ← bitsToNat_testBit bs i]
    congr 1
    cases b <;> simp
    omega

/-- Bit `i` of a warning mask says that byte `i` differs. -/
theorem warnMask_bit (raw e : Raw) (i : Fin 25) : (warnMask raw e).getLsbD i = (raw[i] != e[i]) := by
  rw [warnMask, BitVec.getLsbD_ofNat, bitsToNat_testBit]
  simp [i.isLt]

theorem warnMask_eq_zero {raw e : Raw} : warnMask raw e = 0 ↔ raw = e := by
  constructor
  · intro h
    apply Vector.ext
    intro i hi
    have := warnMask_bit raw e ⟨i, hi⟩
    simpa [h] using this
  · rintro rfl
    apply BitVec.eq_of_getLsbD_eq
    intro i hi
    have := warnMask_bit raw raw ⟨i, hi⟩
    simpa using this

theorem readCell_eq (buf : Vector (Option Byte) 53) (k : Nat) (h : k < 53) : readCell buf k = buf[k] := by
  simp [readCell, h]

/-- A read after a write: the value at the cell written, every other cell as before. -/
theorem readCell_set (buf : Vector (Option Byte) 53) (k j : Nat) (v : Byte) (hk : k < 53) :
    readCell (buf.setIfInBounds k (some v)) j = if j = k then some v else readCell buf j := by
  by_cases hj : j < 53
  · rw [readCell_eq _ _ hj, Vector.getElem_setIfInBounds]
    by_cases h : j = k
    · subst h
      simp
    · rw [if_neg h, if_neg (Ne.symm h), readCell_eq _ _ hj]
  · have : j ≠ k := by omega
    simp [readCell, hj, this]

theorem frameOfCells_some {buf : Vector (Option Byte) 53} {f : Frame} :
    frameOfCells buf = some f ↔ ∀ k : Fin 53, buf[k] = some f[k] := by
  rw [frameOfCells]
  constructor
  · intro h k
    split at h
    · simp only [Option.some.injEq] at h
      subst h
      simp
    · cases h
  · intro h
    rw [dif_pos fun k => by rw [h k]; rfl]
    refine congrArg some (Vector.ext fun i hi => ?_)
    have := h ⟨i, hi⟩
    simp only [Fin.getElem_fin] at this
    simp [this]

end Sys2Proof.Machine
end

