-- ==== Sys2Proof/Laws/Decode.lean ====
section
/-! SUPPORT. The fields of packed commands and of encoded request words. -/

namespace Sys2Proof

/-- The command field group holds every field of the command. -/
theorem unpack_pack (c : Command) : Command.unpack c.pack = c := by
  cases c
  simp only [Command.unpack, Command.pack, Command.mk.injEq]
  refine ⟨?_, ?_, ?_, ?_, ?_, ?_⟩ <;>
  · apply BitVec.eq_of_getLsbD_eq
    intro i hi
    simp only [BitVec.getLsbD_extractLsb', BitVec.getLsbD_append, hi, decide_true, Bool.true_and]
    have := hi
    repeat' split
    all_goals first | omega | (congr 1; omega)

theorem pack_reserved (c : Command) : c.pack.extractLsb' 22 2 = 0 := by
  apply BitVec.eq_of_getLsbD_eq
  intro j hj
  simp only [Command.pack, BitVec.getLsbD_extractLsb', BitVec.getLsbD_append, hj, decide_true, Bool.true_and]
  interval_cases j <;> simp

theorem opOf_encode (i : Instr) : opOf (encode i) = i.op := by
  cases i <;> simp only [opOf, encode, BitVec.getLsbD_append] <;> rfl

theorem ofBit_bit (lv : Level) : Level.ofBit (lv.bit.getLsbD 0) = lv := by cases lv <;> rfl

theorem op_operandsOf (op : Op) (w : BitVec 64) : (operandsOf op w).op = op := by cases op <;> rfl

/-- A field of a word is zero iff each of its bits is. -/
theorem extract_zero_iff (w : BitVec 64) (a n : Nat) :
    (w.extractLsb' a n == 0) = true ↔ ∀ j < n, w.getLsbD (a + j) = false := by
  rw [beq_iff_eq]
  constructor
  · intro h j hj
    have := congrArg (fun v => v.getLsbD j) h
    simpa [hj] using this
  · intro h
    apply BitVec.eq_of_getLsbD_eq
    intro j hj
    simp [hj, h j hj]

/-- The decoder takes a word with its operands, or rejects it naming its operation. -/
theorem decode_cases (w : BitVec 64) :
    (w &&& (opOf w).mask = (opOf w).pattern ∧ decode w = .ok (operandsOf (opOf w) w)) ∨
    (w &&& (opOf w).mask ≠ (opOf w).pattern ∧ decode w = .error (.reservedBits (opOf w))) := by
  rw [decode]
  by_cases h : w &&& (opOf w).mask = (opOf w).pattern
  · exact .inl ⟨h, if_pos h⟩
  · exact .inr ⟨h, if_neg h⟩

end Sys2Proof
end

