-- ==== Sys2Proof/Laws/Encode.lean ====
section
/-! SUPPORT. The frame encoder byte by byte, and the serializer's bytes as numbers. -/

namespace Sys2Proof.Machine

theorem double_header (p : Params) (raw : Raw) (k : Nat) (h : k < 3) : (double p raw)[k] = p.preamble[k] := by
  simp [double, doubledByte, h]

theorem double_data (p : Params) (raw : Raw) (i : Nat) (h : i < 25) : (double p raw)[2 * i + 3] = raw[i] := by
  simp only [double, Vector.getElem_ofFn]
  rw [doubledByte, dif_neg (by simp), if_pos (by simp only; omega)]
  congr 1
  simp

theorem double_complement (p : Params) (raw : Raw) (i : Nat) (h : i < 25) :
    (double p raw)[2 * i + 4] = raw[i] ^^^ 0xFF := by
  simp only [double, Vector.getElem_ofFn]
  rw [doubledByte, dif_neg (by simp only; omega), if_neg (by simp only; omega)]
  congr 2
  simp

/-- The parser's data bytes of a doubled payload are the payload. -/
theorem dataBytes_double (p : Params) (raw : Raw) : dataBytes (double p raw) = raw := by
  apply Vector.ext
  intro i hi
  simp only [dataBytes, Vector.getElem_ofFn]
  exact double_data p raw i hi

theorem dataBytes_frameOfBus (b : BitVec 424) (i : Nat) (h : i < 25) :
    (dataBytes (frameOfBus b))[i] = byteOf b (2 * i + 3) := by
  simp [dataBytes, frameOfBus]

theorem serialize_const (p : Params) (c : Command) (i : Fin 25) (b : Byte) (h : rawConst[i] = some b) :
    (serialize p c)[i] = b := by
  fin_cases i <;> simp [rawConst] at h <;> subst h <;> rfl

theorem nibbles_toNat : ∀ n m : BitVec 4,
    ((BitVec.setWidth 8 n <<< 4) ||| BitVec.setWidth 8 m).toNat = 16 * n.toNat + m.toNat := by decide

theorem nibble_and_flags_toNat : ∀ (n : BitVec 4) (a b : Bool),
    (BitVec.setWidth 8 n ||| (BitVec.setWidth 8 (BitVec.ofBool a) <<< 4) |||
      (BitVec.setWidth 8 (BitVec.ofBool b) <<< 5)).toNat =
    n.toNat + (if a then 16 else 0) + (if b then 32 else 0) := by decide

theorem high_nibble (t : BitVec 12) :
    BitVec.setWidth 8 ((t >>> 8) &&& 0xF) = BitVec.setWidth 8 (t.extractLsb' 8 4) := by
  apply BitVec.eq_of_getLsbD_eq
  intro j hj
  interval_cases j <;> simp

theorem toNat_high_nibble (t : BitVec 12) : (t.extractLsb' 8 4).toNat = t.toNat / 256 := by
  have := t.isLt
  simp [BitVec.extractLsb'_toNat, Nat.shiftRight_eq_div_pow]
  omega

section Bytes
variable (p : Params) (c : Command)

theorem serialize_temp : (serialize p c)[5].toNat = 4 * c.temp.toNat := by
  have := c.temp.isLt
  simp [serialize, Nat.shiftLeft_eq]
  omega

theorem serialize_toff_low : (serialize p c)[7].toNat = 16 * (c.toff.toNat % 16) := by
  have h (n : Nat) : n &&& 15 = n % 16 := Nat.and_two_pow_sub_one_eq_mod n 4
  simp [serialize, Nat.shiftLeft_eq, h]
  omega

theorem serialize_toff_high : (serialize p c)[8].toNat = c.toff.toNat / 16 := by
  have := c.toff.isLt
  have h (n : Nat) : n &&& 255 = n % 256 := Nat.and_two_pow_sub_one_eq_mod n 8
  simp [serialize, Nat.shiftRight_eq_div_pow, h]
  omega

theorem serialize_ton_low : (serialize p c)[9].toNat = c.ton.toNat % 256 := by
  have h (n : Nat) : n &&& 255 = n % 256 := Nat.and_two_pow_sub_one_eq_mod n 8
  simp [serialize, h]

theorem serialize_flags : (serialize p c)[10].toNat =
    c.ton.toNat / 256 + (if c.toff = 0 then 0 else 16) + (if c.ton = 0 then 0 else 32) := by
  refine (congrArg (fun b : Byte =>
    (b ||| (BitVec.setWidth 8 (BitVec.ofBool (c.toff != 0)) <<< 4) |||
      (BitVec.setWidth 8 (BitVec.ofBool (c.ton != 0)) <<< 5)).toNat) (high_nibble c.ton)).trans ?_
  rw [nibble_and_flags_toNat, toNat_high_nibble]
  by_cases a : c.toff = 0 <;> by_cases b : c.ton = 0 <;> simp [a, b]

theorem serialize_fan_mode : (serialize p c)[11].toNat = 16 * c.fan.toNat + (modeNibble p c.mode).toNat :=
  nibbles_toNat _ _

theorem serialize_class : (serialize p c)[12] = modeClass p c.mode := rfl

end Bytes

section Fields
variable (p : Params) (raw : Raw)

theorem toNat_and_fifteen (b : Byte) : (b &&& 0xF).toNat = b.toNat % 16 := by
  have h : b.toNat &&& 15 = b.toNat % 16 := Nat.and_two_pow_sub_one_eq_mod _ 4
  simp [h]

theorem shiftLeft_or_toNat {w : Nat} (a b : BitVec w) (n : Nat) (ha : a.toNat * 2 ^ n < 2 ^ w)
    (hb : b.toNat < 2 ^ n) : ((a <<< n) ||| b).toNat = a.toNat * 2 ^ n + b.toNat := by
  rw [BitVec.toNat_or, BitVec.toNat_shiftLeft, Nat.shiftLeft_eq, Nat.mod_eq_of_lt ha, mul_comm,
    Nat.two_pow_add_eq_or_of_lt hb]

theorem deserialize_temp : (deserialize p raw).temp.toNat = raw[5].toNat / 4 := by
  have := raw[5].isLt
  simp [deserialize, Nat.shiftRight_eq_div_pow]
  omega

theorem deserialize_fan : (deserialize p raw).fan.toNat = raw[11].toNat / 16 := by
  have := raw[11].isLt
  simp [deserialize, Nat.shiftRight_eq_div_pow]
  omega

theorem deserialize_toff : (deserialize p raw).toff.toNat = raw[8].toNat * 16 + raw[7].toNat / 16 := by
  have h8 := raw[8].isLt
  have h7 := raw[7].isLt
  simp only [deserialize]
  rw [shiftLeft_or_toNat]
  · simp [Nat.shiftRight_eq_div_pow]
    omega
  · simp
    omega
  · simp [Nat.shiftRight_eq_div_pow]
    omega

theorem deserialize_ton : (deserialize p raw).ton.toNat = raw[10].toNat % 16 * 256 + raw[9].toNat := by
  have h9 := raw[9].isLt
  have e : (BitVec.setWidth 12 (raw[10] &&& 0xF)).toNat = raw[10].toNat % 16 := by
    rw [BitVec.toNat_setWidth, toNat_and_fifteen]
    omega
  simp only [deserialize]
  rw [shiftLeft_or_toNat _ _ 8]
  · rw [e]
    simp
    omega
  · rw [e]
    omega
  · simp
    omega

theorem deserialize_mode_off (h : raw[12] = 0xE1) : (deserialize p raw).mode = p.modeOff := if_pos h

theorem deserialize_mode (h : raw[12] ≠ 0xE1) : (deserialize p raw).mode.toNat = raw[11].toNat % 16 := by
  simp only [deserialize, parsedMode]
  rw [if_neg h, BitVec.toNat_setWidth, toNat_and_fifteen]
  omega

end Fields

end Sys2Proof.Machine
end

