-- ==== Sys2Proof/Laws/State.lean ====
section
/-! SUPPORT. One lemma per field for each update of the state and of the decoder record. -/

namespace Sys2Proof.Machine

section StateUpdates
variable (s : State) (r : Request) (rest : List Request) (rsp : Response) (d : Decoder)

@[simp] theorem accept_dec : (s.accept r rest).dec = s.dec := rfl
@[simp] theorem accept_response : (s.accept r rest).response = s.response := rfl
@[simp] theorem accept_waiting : (s.accept r rest).waiting = rest := rfl
@[simp] theorem accept_frameIn : (s.accept r rest).frameIn = r.frameIn := rfl

@[simp] theorem submit_dec : (s.submit r).dec = s.dec := rfl
@[simp] theorem submit_response : (s.submit r).response = s.response := rfl
@[simp] theorem submit_waiting : (s.submit r).waiting = s.waiting ++ [r] := rfl
@[simp] theorem submit_frameIn : (s.submit r).frameIn = s.frameIn := rfl

@[simp] theorem respond_dec : (s.respond rsp).dec = s.dec := rfl
@[simp] theorem respond_response : (s.respond rsp).response = some rsp := rfl
@[simp] theorem respond_waiting : (s.respond rsp).waiting = s.waiting := rfl
@[simp] theorem respond_frameIn : (s.respond rsp).frameIn = s.frameIn := rfl

@[simp] theorem withDec_dec : (s.withDec d).dec = d := rfl
@[simp] theorem withDec_response : (s.withDec d).response = s.response := rfl
@[simp] theorem withDec_waiting : (s.withDec d).waiting = s.waiting := rfl
@[simp] theorem withDec_frameIn : (s.withDec d).frameIn = s.frameIn := rfl

end StateUpdates

section DecoderUpdates
variable (d : Decoder) (st : Stage) (c b : Bool) (v : Byte)

@[simp] theorem setStage_stage : (d.setStage st).stage = st := rfl
@[simp] theorem setStage_carrier : (d.setStage st).carrier = d.carrier := rfl
@[simp] theorem setStage_acc : (d.setStage st).acc = d.acc := rfl
@[simp] theorem setStage_nbits : (d.setStage st).nbits = d.nbits := rfl
@[simp] theorem setStage_byteIndex : (d.setStage st).byteIndex = d.byteIndex := rfl
@[simp] theorem setStage_check : (d.setStage st).check = d.check := rfl
@[simp] theorem setStage_buf : (d.setStage st).buf = d.buf := rfl

@[simp] theorem setCarrier_stage : (d.setCarrier c).stage = d.stage := rfl
@[simp] theorem setCarrier_carrier : (d.setCarrier c).carrier = c := rfl
@[simp] theorem setCarrier_acc : (d.setCarrier c).acc = d.acc := rfl
@[simp] theorem setCarrier_nbits : (d.setCarrier c).nbits = d.nbits := rfl
@[simp] theorem setCarrier_byteIndex : (d.setCarrier c).byteIndex = d.byteIndex := rfl
@[simp] theorem setCarrier_check : (d.setCarrier c).check = d.check := rfl
@[simp] theorem setCarrier_buf : (d.setCarrier c).buf = d.buf := rfl
@[simp] theorem setCarrier_accWith : (d.setCarrier c).accWith b = d.accWith b := rfl

@[simp] theorem pushBit_stage : (d.pushBit b).stage = d.stage := rfl
@[simp] theorem pushBit_carrier : (d.pushBit b).carrier = d.carrier := rfl
@[simp] theorem pushBit_acc : (d.pushBit b).acc = d.accWith b := rfl
@[simp] theorem pushBit_nbits : (d.pushBit b).nbits = d.nbits + 1 := rfl
@[simp] theorem pushBit_byteIndex : (d.pushBit b).byteIndex = d.byteIndex := rfl
@[simp] theorem pushBit_check : (d.pushBit b).check = d.check := rfl
@[simp] theorem pushBit_buf : (d.pushBit b).buf = d.buf := rfl

@[simp] theorem clearBits_stage : d.clearBits.stage = d.stage := rfl
@[simp] theorem clearBits_carrier : d.clearBits.carrier = d.carrier := rfl
@[simp] theorem clearBits_acc : d.clearBits.acc = 0 := rfl
@[simp] theorem clearBits_nbits : d.clearBits.nbits = 0 := rfl
@[simp] theorem clearBits_byteIndex : d.clearBits.byteIndex = d.byteIndex := rfl
@[simp] theorem clearBits_check : d.clearBits.check = d.check := rfl
@[simp] theorem clearBits_buf : d.clearBits.buf = d.buf := rfl

@[simp] theorem storeByte_stage : (d.storeByte v c).stage = d.stage := rfl
@[simp] theorem storeByte_carrier : (d.storeByte v c).carrier = d.carrier := rfl
@[simp] theorem storeByte_acc : (d.storeByte v c).acc = d.acc := rfl
@[simp] theorem storeByte_nbits : (d.storeByte v c).nbits = d.nbits := rfl
@[simp] theorem storeByte_byteIndex : (d.storeByte v c).byteIndex = d.byteIndex + 1 := rfl
@[simp] theorem storeByte_check : (d.storeByte v c).check = c := rfl
@[simp] theorem storeByte_buf :
    (d.storeByte v c).buf = d.buf.setIfInBounds d.byteIndex.toNat (some v) := rfl

end DecoderUpdates

end Sys2Proof.Machine
end

