-- ==== Sys2Proof/Laws/Ops.lean ====
section
/-! SUPPORT. Each shared operation that ends a request, with the whole state it leaves; and the kinds of the
response words. -/

namespace Sys2Proof.Machine

theorem kind_of_word (r : Reply) : r.word.extractLsb' 0 3 = r.kind := by
  cases r <;> first
    | rfl
    | (apply BitVec.eq_of_getLsbD_eq
       intro j hj
       simp only [Reply.word, Reply.kind, BitVec.getLsbD_extractLsb', BitVec.getLsbD_append, hj, decide_true,
         Bool.true_and, Nat.zero_add, if_true]
       rfl)

theorem kind_bareResponse (r : Reply) : (bareResponse r).kind = r.kind := kind_of_word r

theorem kind_frameResponse (f : Frame) : (frameResponse f).kind = 0 := kind_of_word .done

theorem kind_commandResponse (r : Reply) (c : Command) (warn : BitVec 25) (raw : Raw) :
    (commandResponse r c warn raw).kind = r.kind := kind_of_word r

theorem finish_eq (s : State) (r : Response) : finish s r = .next { s with response := some r } := rfl

theorem pend_eq (s : State) (d : Decoder) :
    pend s d = .next { s with dec := d, response := some (bareResponse .pending) } := rfl

theorem errorEntry_eq (s : State) (r : Reply) :
    errorEntry s r = .next { s with dec := Decoder.init, response := some (bareResponse r) } := rfl

theorem violate_eq (s : State) (st : Stage) (lv : Level) (d : Duration) (w : WindowId) :
    violate s st lv d w =
      .next { s with dec := Decoder.init, response := some (bareResponse (.toleranceViolation st lv w d)) } := rfl

theorem illegalRequest_eq (op : Op) (s : State) :
    illegalRequest op s = .next { s with response := some (bareResponse (.illegalRequest op)) } := rfl

/-- The eighth bit is bit 7 of the byte. -/
theorem accWith_seventh (d : Decoder) (b : Bool) (h : d.nbits = 7) :
    d.accWith b = d.acc ||| (if b then 0x80 else 0) := by
  rw [Decoder.accWith, h]
  cases b <;> rfl

theorem inW_iff (lo hi d : Duration) : inW lo hi d = true ↔ lo.toNat ≤ d.toNat ∧ d.toNat ≤ hi.toNat := by
  simp [inW, BitVec.le_def]

theorem isBit_fits {b : Bool} {d : Duration} (h : isBit b d = true) : WindowId.bitSpace.fits .H d = true := by
  cases b <;> simp_all [isBit, WindowId.fits, WindowId.holds, WindowId.level]

theorem fits_bitSpace_iff {lv : Level} {d : Duration} :
    WindowId.bitSpace.fits lv d = true ↔ lv = .H ∧ ∃ b, isBit b d = true := by
  simp [WindowId.fits, WindowId.level, WindowId.holds, isBit]

end Sys2Proof.Machine
end

