-- ==== Sys2Proof/Laws/Feed.lean ====
section
/-! SUPPORT. FEED: everything it can do, and that it does it. -/

namespace Sys2Proof.Machine

/-- How a byte `v` that completes in the decoder `d` is stored with PENDING, and the `check` it leaves: a
header byte, a data byte, or a check byte that passes before position 52. -/
def Stores (d : Decoder) (v : Byte) (c : Bool) : Prop :=
  (d.byteIndex.toNat < 3 ∧ c = d.check) ∨
  (3 ≤ d.byteIndex.toNat ∧ d.check = false ∧ c = true) ∨
  (3 ≤ d.byteIndex.toNat ∧ d.check = true ∧ c = false ∧ d.byteIndex ≠ 52 ∧
    ∃ dv, readCell d.buf (d.byteIndex.toNat - 1) = some dv ∧ v = dv ^^^ 0xFF)

/-- The stages an expected event of the preamble moves between (41_decoder.md R142, R144 to R146). -/
inductive Advances : Stage → Stage → Prop
  | leaderMark : Advances .idle .leaderMark
  | leaderSpace : Advances .leaderMark .leaderSpace
  | headerMark : Advances .leaderSpace .syncBit
  | headerSpace : Advances .syncBit .dataMode

/-- Everything FEED can do that answers a next state: the event `lv` `x` takes the decoder `d` to the decoder
and the response named. -/
inductive FeedEffect (d : Decoder) (lv : Level) (x : Duration) : Decoder → Response → Prop
  | ignored : d.stage = .idle → lv = .H → FeedEffect d lv x d (bareResponse .pending)
  | advanced (st : Stage) : Advances d.stage st → d.expects.fits lv x = true →
      FeedEffect d lv x (d.setStage st) (bareResponse .pending)
  | marked : d.stage = .dataMode → d.carrier = true → d.expects.fits lv x = true →
      FeedEffect d lv x (d.setCarrier false) (bareResponse .pending)
  | violated : ¬ d.Takes lv x →
      FeedEffect d lv x Decoder.init (bareResponse (.toleranceViolation d.stage lv d.expects x))
  | bit (b : Bool) : d.stage = .dataMode → d.carrier = false → lv = .H → isBit b x = true →
      d.nbits.toNat < 7 → FeedEffect d lv x ((d.setCarrier true).pushBit b) (bareResponse .pending)
  | byte (b : Bool) (v : Byte) (c : Bool) : d.Completes b v → lv = .H → isBit b x = true →
      d.byteIndex.toNat < 53 → Stores d v c →
      FeedEffect d lv x ((d.setCarrier true).clearBits.storeByte v c) (bareResponse .pending)
  | mismatch (b : Bool) (v dv : Byte) : d.Completes b v → lv = .H → isBit b x = true →
      3 ≤ d.byteIndex.toNat → d.byteIndex.toNat < 53 → d.check = true →
      readCell d.buf (d.byteIndex.toNat - 1) = some dv → v ≠ dv ^^^ 0xFF →
      FeedEffect d lv x Decoder.init (bareResponse (.redundancyMismatch d.byteIndex dv v))
  | complete (b : Bool) (v dv : Byte) (f : Frame) : d.Completes b v → lv = .H → isBit b x = true →
      d.byteIndex = 52 → d.check = true → readCell d.buf 51 = some dv → v = dv ^^^ 0xFF →
      frameOfCells (d.buf.setIfInBounds 52 (some v)) = some f →
      FeedEffect d lv x Decoder.init (parseResponse Config.params .frameComplete f)

/-! ### What FEED does is one of these -/

theorem completes_of {d : Decoder} {b : Bool} (h1 : d.stage = .dataMode) (h2 : d.carrier = false)
    (h3 : ¬ d.nbits.toNat < 7) : d.Completes b (d.accWith b) := by
  have h7 : d.nbits = 7 := by
    apply BitVec.eq_of_toNat_eq
    have := d.nbits.isLt
    simp
    omega
  exact ⟨h1, h2, h7, accWith_seventh _ _ h7⟩

theorem feedExpect_fits {w : WindowId} {n : Decoder} {lv : Level} {x : Duration} {s : State}
    (h : w.fits lv x = true) : feedExpect w n lv x s = pend s n := by rw [feedExpect, if_pos h]

theorem feedExpect_misfits {w : WindowId} {n : Decoder} {lv : Level} {x : Duration} {s : State}
    (h : w.fits lv x = false) : feedExpect w n lv x s = violate s s.dec.stage lv x w := by rw [feedExpect, h]; rfl

theorem acceptCheck_last {d : Decoder} {s : State} (h : d.byteIndex = 53) : acceptCheck d s =
    match frameOfCells d.buf with
    | some f => finish (s.withDec Decoder.init) (parseResponse Config.params .frameComplete f)
    | none => .fault .unwrittenCell := if_pos h

theorem acceptCheck_before_last {d : Decoder} {s : State} (h : d.byteIndex ≠ 53) : acceptCheck d s = pend s d :=
  if_neg h

theorem acceptByte_overrun {d : Decoder} {v : Byte} {s : State} (h : 53 ≤ d.byteIndex.toNat) :
    acceptByte d v s = .fault .frameOverrun := if_pos h

theorem acceptByte_header {d : Decoder} {v : Byte} {s : State} (h : d.byteIndex.toNat < 3) :
    acceptByte d v s = pend s (d.storeByte v d.check) := by
  rw [acceptByte, if_neg (by omega), if_pos h]

theorem acceptByte_data {d : Decoder} {v : Byte} {s : State} (h3 : 3 ≤ d.byteIndex.toNat)
    (h53 : d.byteIndex.toNat < 53) (hk : d.check = false) : acceptByte d v s = pend s (d.storeByte v true) := by
  rw [acceptByte, if_neg (by omega), if_neg (by omega), hk]

theorem acceptByte_check {d : Decoder} {v : Byte} {s : State} (h3 : 3 ≤ d.byteIndex.toNat)
    (h53 : d.byteIndex.toNat < 53) (hk : d.check = true) : acceptByte d v s = checkByte d v s := by
  rw [acceptByte, if_neg (by omega), if_neg (by omega), hk]

theorem checkByte_pass {d : Decoder} {v dv : Byte} {s : State} (h : readCell d.buf (d.byteIndex.toNat - 1) = some dv)
    (hv : v = dv ^^^ 0xFF) : checkByte d v s = acceptCheck (d.storeByte v false) s := by
  rw [checkByte, h]
  exact if_pos hv

theorem checkByte_fail {d : Decoder} {v dv : Byte} {s : State} (h : readCell d.buf (d.byteIndex.toNat - 1) = some dv)
    (hv : v ≠ dv ^^^ 0xFF) : checkByte d v s = errorEntry s (.redundancyMismatch d.byteIndex dv v) := by
  rw [checkByte, h]
  exact if_neg hv

theorem checkByte_unwritten {d : Decoder} {v : Byte} {s : State} (h : readCell d.buf (d.byteIndex.toNat - 1) = none) :
    checkByte d v s = .fault .unwrittenCell := by rw [checkByte, h]

theorem acceptBit_below {d : Decoder} {b : Bool} {s : State} (h : d.nbits.toNat < 7) :
    acceptBit d b s = pend s (d.pushBit b) := if_pos h

theorem acceptBit_eighth {d : Decoder} {b : Bool} {s : State} (h : ¬ d.nbits.toNat < 7) :
    acceptBit d b s = acceptByte d.clearBits (d.accWith b) s := if_neg h

theorem add_one_eq_53_iff (k : BitVec 6) : k + 1 = 53 ↔ k = 52 := by
  constructor
  · intro hc
    have := congrArg (· - 1#6) hc
    simpa using this
  · rintro rfl
    rfl

theorem checkByte_effect {lv : Level} {x : Duration} {s t : State} {b : Bool} {v : Byte} (hv : s.dec.Completes b v)
    (hl : lv = .H) (hb : isBit b x = true) (h53 : s.dec.byteIndex.toNat < 53) (h3 : 3 ≤ s.dec.byteIndex.toNat)
    (hk : s.dec.check = true) (h : checkByte (s.dec.setCarrier true).clearBits v s = .next t) :
    ∃ d' rsp, FeedEffect s.dec lv x d' rsp ∧ t = (s.withDec d').respond rsp := by
  cases hr : readCell s.dec.buf (s.dec.byteIndex.toNat - 1) with
  | none => rw [checkByte_unwritten (d := (s.dec.setCarrier true).clearBits) hr] at h; cases h
  | some dv =>
    by_cases he : v = dv ^^^ 0xFF
    · rw [checkByte_pass (d := (s.dec.setCarrier true).clearBits) hr he] at h
      by_cases h52 : s.dec.byteIndex = 52
      · have e : (52 : BitVec 6).toNat = 52 := rfl
        rw [acceptCheck_last ((add_one_eq_53_iff _).2 h52)] at h
        simp only [storeByte_buf, clearBits_byteIndex, setCarrier_byteIndex, clearBits_buf, setCarrier_buf, h52,
          e] at h
        rw [h52, e] at hr
        cases hf : frameOfCells (s.dec.buf.setIfInBounds 52 (some v)) with
        | none => simp [hf] at h
        | some f =>
          simp only [hf] at h
          exact ⟨_, _, .complete b v dv f hv hl hb h52 hk hr he hf, by simpa [finish] using h.symm⟩
      · rw [acceptCheck_before_last (mt (add_one_eq_53_iff _).1 h52)] at h
        exact ⟨_, _, .byte b v false hv hl hb h53 (.inr (.inr ⟨h3, hk, rfl, h52, dv, hr, he⟩)),
          by simpa [pend, finish] using h.symm⟩
    · rw [checkByte_fail (d := (s.dec.setCarrier true).clearBits) hr he] at h
      exact ⟨_, _, .mismatch b v dv hv hl hb h3 h53 hk hr he, by simpa [errorEntry, finish] using h.symm⟩

theorem acceptBit_effect {lv : Level} {x : Duration} {s t : State} {b : Bool} (hs : s.dec.stage = .dataMode)
    (hc : s.dec.carrier = false) (hl : lv = .H) (hb : isBit b x = true)
    (h : acceptBit (s.dec.setCarrier true) b s = .next t) :
    ∃ d' rsp, FeedEffect s.dec lv x d' rsp ∧ t = (s.withDec d').respond rsp := by
  by_cases hn : s.dec.nbits.toNat < 7
  · rw [acceptBit_below (d := s.dec.setCarrier true) hn] at h
    exact ⟨_, _, .bit b hs hc hl hb hn, by simpa [pend, finish] using h.symm⟩
  rw [acceptBit_eighth (d := s.dec.setCarrier true) hn, setCarrier_accWith] at h
  have hv := completes_of (b := b) hs hc hn
  by_cases h53 : 53 ≤ s.dec.byteIndex.toNat
  · rw [acceptByte_overrun (d := (s.dec.setCarrier true).clearBits) h53] at h
    cases h
  by_cases h3 : s.dec.byteIndex.toNat < 3
  · rw [acceptByte_header (d := (s.dec.setCarrier true).clearBits) h3] at h
    exact ⟨_, _, .byte b _ s.dec.check hv hl hb (by omega) (.inl ⟨h3, rfl⟩), by simpa [pend, finish] using h.symm⟩
  cases hk : s.dec.check with
  | false =>
    rw [acceptByte_data (d := (s.dec.setCarrier true).clearBits) (not_lt.1 h3) (not_le.1 h53) hk] at h
    exact ⟨_, _, .byte b _ true hv hl hb (by omega) (.inr (.inl ⟨by omega, hk, rfl⟩)),
      by simpa [pend, finish] using h.symm⟩
  | true =>
    rw [acceptByte_check (d := (s.dec.setCarrier true).clearBits) (not_lt.1 h3) (not_le.1 h53) hk] at h
    exact checkByte_effect hv hl hb (by omega) (by omega) hk h

theorem feedExpect_effect {w : WindowId} {n : Decoder} {lv : Level} {x : Duration} {s t : State}
    (hi : s.dec.stage = .idle → lv = .L) (hw : s.dec.expects = w)
    (hn : w.fits lv x = true → FeedEffect s.dec lv x n (bareResponse .pending))
    (h : feedExpect w n lv x s = .next t) :
    ∃ d' rsp, FeedEffect s.dec lv x d' rsp ∧ t = (s.withDec d').respond rsp := by
  cases hf : w.fits lv x with
  | true =>
    rw [feedExpect_fits hf] at h
    exact ⟨_, _, hn hf, by simpa [pend, finish] using h.symm⟩
  | false =>
    rw [feedExpect_misfits hf] at h
    refine ⟨_, _, .violated ?_, by simpa [violate, errorEntry, finish, hw] using h.symm⟩
    rintro (⟨h1, h2⟩ | h1)
    · rw [hi h1] at h2
      cases h2
    · rw [hw, hf] at h1
      cases h1

theorem feedSpace_effect {lv : Level} {x : Duration} {s t : State} (hs : s.dec.stage = .dataMode)
    (hc : s.dec.carrier = false) (h : feedSpace lv x s = .next t) :
    ∃ d' rsp, FeedEffect s.dec lv x d' rsp ∧ t = (s.withDec d').respond rsp := by
  have hv : WindowId.bitSpace.fits lv x = false → violate s .dataMode lv x .bitSpace = .next t →
      ∃ d' rsp, FeedEffect s.dec lv x d' rsp ∧ t = (s.withDec d').respond rsp := by
    intro hf hx
    exact ⟨_, _, .violated (by simp [Decoder.Takes, Decoder.expects, hs, hc, hf]),
      by simpa [Decoder.expects, hs, hc, violate, errorEntry, finish] using hx.symm⟩
  cases lv <;> simp only [feedSpace] at h
  · exact hv (by simp [WindowId.fits, WindowId.level]) h
  · split at h
    · next hz => exact acceptBit_effect hs hc rfl (b := false) hz h
    · split at h
      · next hz => exact acceptBit_effect hs hc rfl (b := true) hz h
      · next h0 h1 => exact hv (by simp_all [WindowId.fits, WindowId.level, WindowId.holds]) h

/-- FEED that answers a next state had one of the effects, and wrote only the decoder and the response. -/
theorem feed_effect {lv : Level} {x : Duration} {s t : State} (h : exec (.feed lv x) s = .next t) :
    ∃ d' rsp, FeedEffect s.dec lv x d' rsp ∧ t = (s.withDec d').respond rsp := by
  simp only [exec, execFeed] at h
  cases hs : s.dec.stage <;> simp only [hs] at h
  · cases lv <;> simp only [feedIdle] at h
    · exact feedExpect_effect (by simp) (by simp [Decoder.expects, hs])
        (fun hf => .advanced .leaderMark (by rw [hs]; exact .leaderMark) (by simpa [Decoder.expects, hs] using hf)) h
    · exact ⟨_, _, .ignored hs rfl, by simpa [pend, finish] using h.symm⟩
  · exact feedExpect_effect (by simp [hs]) (by simp [Decoder.expects, hs])
      (fun hf => .advanced .leaderSpace (by rw [hs]; exact .leaderSpace) (by simpa [Decoder.expects, hs] using hf)) h
  · exact feedExpect_effect (by simp [hs]) (by simp [Decoder.expects, hs])
      (fun hf => .advanced .syncBit (by rw [hs]; exact .headerMark) (by simpa [Decoder.expects, hs] using hf)) h
  · exact feedExpect_effect (by simp [hs]) (by simp [Decoder.expects, hs])
      (fun hf => .advanced .dataMode (by rw [hs]; exact .headerSpace) (by simpa [Decoder.expects, hs] using hf)) h
  · cases hc : s.dec.carrier <;> simp only [hc] at h
    · exact feedSpace_effect hs hc h
    · exact feedExpect_effect (by simp [hs]) (by simp [Decoder.expects, hs, hc])
        (fun hf => .marked hs hc (by simpa [Decoder.expects, hs, hc] using hf)) h

/-! ### FEED does each of these -/

theorem execFeed_dataMode_mark {lv : Level} {x : Duration} {s : State} (hs : s.dec.stage = .dataMode)
    (hc : s.dec.carrier = true) :
    exec (.feed lv x) s = feedExpect .bitMark (s.dec.setCarrier false) lv x s := by
  simp only [exec, execFeed, hs, hc]

theorem execFeed_dataMode_space {lv : Level} {x : Duration} {s : State} (hs : s.dec.stage = .dataMode)
    (hc : s.dec.carrier = false) : exec (.feed lv x) s = feedSpace lv x s := by
  simp only [exec, execFeed, hs, hc]

/-- The windows of the two bit values do not meet. -/
theorem isBit_unique {b b' : Bool} {x : Duration} (h : isBit b x = true) (h' : isBit b' x = true) : b = b' := by
  cases b <;> cases b' <;> simp only [isBit, inBitZero, inBitOne, inW_iff] at h h' <;> first | rfl | simp at h h'; omega

theorem feedSpace_bit {b : Bool} {x : Duration} {s : State} (hb : isBit b x = true) :
    feedSpace .H x s = acceptBit (s.dec.setCarrier true) b s := by
  rw [feedSpace]
  cases b with
  | false => exact if_pos hb
  | true =>
    have hz : ¬ inBitZero x = true := fun hz => Bool.false_ne_true (isBit_unique (b := false) hz hb)
    rw [if_neg hz]
    exact if_pos hb

theorem violate_of_not_takes {lv : Level} {x : Duration} {s : State} (h : ¬ s.dec.Takes lv x) :
    exec (.feed lv x) s = violate s s.dec.stage lv x s.dec.expects := by
  simp only [Decoder.Takes, not_or, Bool.not_eq_true, Decoder.expects] at h
  obtain ⟨h1, h2⟩ := h
  simp only [exec, execFeed, Decoder.expects]
  cases hs : s.dec.stage <;> simp only [hs] at h1 h2 ⊢
  · cases lv
    · rw [feedIdle, feedExpect_misfits h2, hs]
    · simp at h1
  · rw [feedExpect_misfits h2, hs]
  · rw [feedExpect_misfits h2, hs]
  · rw [feedExpect_misfits h2, hs]
  · cases hc : s.dec.carrier <;> simp only [hc] at h2 ⊢
    · cases lv
      · rfl
      · have : inBitZero x = false ∧ inBitOne x = false := by
          simpa [WindowId.fits, WindowId.level, WindowId.holds] using h2
        simp [feedSpace, this.1, this.2]
    · rw [feedExpect_misfits h2, hs]

theorem feed_completes {x : Duration} {b : Bool} {v : Byte} {s : State} (h : s.dec.Completes b v)
    (hb : isBit b x = true) : exec (.feed .H x) s = acceptByte (s.dec.setCarrier true).clearBits v s := by
  have hn : ¬ (s.dec.setCarrier true).nbits.toNat < 7 := by
    rw [setCarrier_nbits, h.nbits]
    decide
  rw [execFeed_dataMode_space h.stage h.carrier, feedSpace_bit hb, acceptBit_eighth hn, setCarrier_accWith,
    accWith_seventh _ _ h.nbits, ← h.value]

theorem feed_stores {x : Duration} {b : Bool} {v : Byte} {c : Bool} {s : State} (h : s.dec.Completes b v)
    (hb : isBit b x = true) (h53 : s.dec.byteIndex.toNat < 53) (hst : Stores s.dec v c) :
    exec (.feed .H x) s = pend s ((s.dec.setCarrier true).clearBits.storeByte v c) := by
  rw [feed_completes h hb]
  obtain ⟨h3, rfl⟩ | ⟨h3, hk, rfl⟩ | ⟨h3, hk, rfl, h52, dv, hr, hv⟩ := hst
  · exact acceptByte_header h3
  · exact acceptByte_data h3 h53 hk
  · rw [acceptByte_check (d := (s.dec.setCarrier true).clearBits) h3 h53 hk,
      checkByte_pass (d := (s.dec.setCarrier true).clearBits) hr hv,
      acceptCheck_before_last (mt (add_one_eq_53_iff _).1 h52)]

/-- FEED has each of the effects, and writes only the decoder and the response. -/
theorem feed_of_effect {lv : Level} {x : Duration} {s : State} {d' : Decoder} {rsp : Response}
    (h : FeedEffect s.dec lv x d' rsp) : exec (.feed lv x) s = .next ((s.withDec d').respond rsp) := by
  cases h with
  | ignored hs hl =>
    subst hl
    simp only [exec, execFeed, hs, feedIdle]
    rfl
  | advanced st ha hf =>
    generalize hs : s.dec.stage = st0 at ha
    cases ha <;> simp only [Decoder.expects, hs] at hf <;> simp only [exec, execFeed, hs]
    · cases lv
      · exact feedExpect_fits hf
      · simp [WindowId.fits, WindowId.level] at hf
    all_goals exact feedExpect_fits hf
  | marked hs hc hf =>
    simp only [Decoder.expects, hs, hc] at hf
    rw [execFeed_dataMode_mark hs hc]
    exact feedExpect_fits hf
  | violated ht => exact violate_of_not_takes ht
  | bit b hs hc hl hb hn =>
    subst hl
    rw [execFeed_dataMode_space hs hc, feedSpace_bit hb]
    exact acceptBit_below hn
  | byte b v c hv hl hb h53 hst =>
    subst hl
    exact feed_stores hv hb h53 hst
  | mismatch b v dv hv hl hb h3 h53 hk hr hne =>
    subst hl
    rw [feed_completes hv hb, acceptByte_check (d := (s.dec.setCarrier true).clearBits) h3 h53 hk]
    exact checkByte_fail (d := (s.dec.setCarrier true).clearBits) hr hne
  | complete b v dv f hv hl hb h52 hk hr he hf =>
    subst hl
    have e : s.dec.byteIndex.toNat = 52 := by rw [h52]; rfl
    rw [feed_completes hv hb,
      acceptByte_check (d := (s.dec.setCarrier true).clearBits) (show 3 ≤ s.dec.byteIndex.toNat by omega)
        (show s.dec.byteIndex.toNat < 53 by omega) hk,
      checkByte_pass (d := (s.dec.setCarrier true).clearBits) (dv := dv)
        (by rw [clearBits_buf, setCarrier_buf, clearBits_byteIndex, setCarrier_byteIndex, e]; exact hr) he,
      acceptCheck_last ((add_one_eq_53_iff _).2 h52), storeByte_buf, clearBits_byteIndex, setCarrier_byteIndex,
      clearBits_buf, setCarrier_buf, e, hf]
    rfl

end Sys2Proof.Machine
end

