-- ==== Sys2Proof/Laws/PerInstr.lean ====
section
/-! SUPPORT. A statement about every instruction as syntax, one lemma per constructor. -/

namespace Sys2Proof.Laws.EncodedWord

/-- An instruction is well-formed, and its word meets the mask-and-match test of its own operation
(30_encoding.md R77). -/
def Statement (i : Instr) : Prop :=
  i.wellFormed = true ∧ encode i &&& i.op.mask = i.op.pattern

theorem encode (c : Command) : Statement (.encode c) := by
  refine ⟨?_, ?_⟩
  · simp only [Instr.wellFormed, AsmLine.wellFormed, Bool.and_eq_true, decide_eq_true_eq]
    exact ⟨⟨⟨⟨⟨c.upd.isLt, c.mode.isLt⟩, c.fan.isLt⟩, c.temp.isLt⟩, c.ton.isLt⟩, c.toff.isLt⟩
  · apply BitVec.eq_of_getLsbD_eq
    intro j hj
    simp only [Sys2Proof.encode, Instr.op, Op.mask, Op.pattern, Command.pack, BitVec.getLsbD_and,
      BitVec.getLsbD_append]
    interval_cases j <;> simp

theorem feed (lv : Level) (d : Duration) : Statement (.feed lv d) := by
  refine ⟨?_, ?_⟩
  · simpa only [Instr.wellFormed, AsmLine.wellFormed, decide_eq_true_eq] using d.isLt
  · apply BitVec.eq_of_getLsbD_eq
    intro j hj
    simp only [Sys2Proof.encode, Instr.op, Op.mask, Op.pattern, BitVec.getLsbD_and, BitVec.getLsbD_append]
    interval_cases j <;> simp

theorem parse : Statement .parse := ⟨rfl, rfl⟩

theorem reset : Statement .reset := ⟨rfl, rfl⟩

end Sys2Proof.Laws.EncodedWord
end

