-- ==== Sys2Proof/Laws/Step.lean ====
section
/-! SUPPORT. What a step and each operation can do, said once. -/

namespace Sys2Proof.Machine

/-- What a step that answers a next state did: nothing with no request waiting, an operation, or the answer
to an illegal request. -/
theorem step_next {s t : State} (h : step s = .next t) :
    (s.waiting = [] ∧ t = s) ∨ ∃ r rest, s.waiting = r :: rest ∧
      ((∃ i, decode r.word = .ok i ∧ exec i (s.accept r rest) = .next t) ∨
        ∃ op, decode r.word = .error (.reservedBits op) ∧
          t = (s.accept r rest).respond (bareResponse (.illegalRequest op))) := by
  rw [step] at h
  cases hw : s.waiting with
  | nil =>
    rw [hw] at h
    exact .inl ⟨rfl, by simpa using h.symm⟩
  | cons r rest =>
    rw [hw] at h
    refine .inr ⟨r, rest, rfl, ?_⟩
    cases hd : decode r.word with
    | ok i =>
      simp only [hd] at h
      exact .inl ⟨i, rfl, h⟩
    | error e =>
      cases e with
      | reservedBits op =>
        simp only [hd] at h
        exact .inr ⟨op, rfl, by simpa [illegalRequest, finish] using h.symm⟩

/-- What an operation that answers a next state did. -/
theorem exec_next {i : Instr} {s t : State} (h : exec i s = .next t) :
    (∃ c, i = .encode c ∧ t = s.respond (frameResponse (encodeFrame Config.params c))) ∨
    (i = .parse ∧ t = s.respond (parseResponse Config.params .done s.frameOperand)) ∨
    (i = .reset ∧ t = (s.withDec Decoder.init).respond (bareResponse .done)) ∨
    ∃ lv d d' rsp, i = .feed lv d ∧ FeedEffect s.dec lv d d' rsp ∧ t = (s.withDec d').respond rsp := by
  cases i with
  | encode c => exact .inl ⟨c, rfl, by simpa [exec, execEncode, finish] using h.symm⟩
  | parse => exact .inr (.inl ⟨rfl, by simpa [exec, execParse, finish] using h.symm⟩)
  | reset => exact .inr (.inr (.inl ⟨rfl, by simpa [exec, execReset, finish] using h.symm⟩))
  | feed lv d =>
    obtain ⟨d', rsp, he, ht⟩ := feed_effect h
    exact .inr (.inr (.inr ⟨lv, d, d', rsp, rfl, he, ht⟩))

end Sys2Proof.Machine
end

