-- ==== Sys2Proof/Tests/Slice0.lean ====
section
/-! SUPPORT. Tests: expected values are those of 95_test_vectors.md and 30_encoding.md R102. After them, one
witness for each statement that has hypotheses: a concrete state and operands that meet all of them. -/

namespace Sys2Proof.Tests

open Sys2Proof Sys2Proof.Machine

/-! ### Helpers -/

/-- The parameter set EX of 95_test_vectors.md. -/
def ex : Params where
  preamble := #v[0x01, 0x10, 0x00]
  modeOff := 0
  modeHeating := 6
  modeCooling := 3

/-- The state of a result. -/
def after : Result → Option State
  | .next t => some t
  | .fault _ => none
  | .refused _ => none

/-- The response of a result. -/
def answer (r : Result) : Option Response := (after r).bind State.response

/-- The response word of a result. -/
def rsp (r : Result) : Option (BitVec 64) := (answer r).map Response.word

/-- The decoder after a result. -/
def dec (r : Result) : Option Decoder := (after r).map State.dec

/-- The power-on state with another decoder. -/
def at_ (d : Decoder) : State := State.reset.withDec d

/-- The power-on state with words on the port, FRAME_IN 0. -/
def port (ws : List (BitVec 64)) : State := State.reset.withRequests (ws.map fun w => ⟨w, 0⟩)

/-- Requests of instructions, FRAME_IN 0. -/
def requests (is : List Instr) : List Request := is.map fun i => i.request 0

/-- A decoder in DataMode in the middle of the frame `f`: `k` bytes stored, `n` bits of the next in `acc`. -/
def midFrame (f : Frame) (k : BitVec 6) (n : BitVec 3) (acc : Byte) (carrier : Bool) : Decoder where
  stage := .dataMode
  carrier := carrier
  acc := acc
  nbits := n
  byteIndex := k
  check := decide (3 ≤ k.toNat ∧ k.toNat % 2 = 0)
  buf := Vector.ofFn fun j => if j.val < k.toNat then some f[j] else none

/-- A frame with passing checks: header and data bytes 0, check bytes 0xFF. -/
def plain : Frame := Vector.ofFn fun k => if 4 ≤ k.val ∧ k.val % 2 = 0 then 0xFF else 0

/-- DataMode at its start. -/
def dataStart : Decoder := Decoder.init.setStage .dataMode

/-- The command of L1-1. -/
def c1 : Command := ⟨0x13, 0, 5, 25, 0, 0⟩

/-! ### Well-formedness: each check refuses an ill-formed term -/

theorem test_update_code_too_wide : (AsmLine.encode 256 0 0 0 0 0).wellFormed = false := by decide
theorem test_mode_too_wide : (AsmLine.encode 0 16 0 0 0 0).wellFormed = false := by decide
theorem test_fan_too_wide : (AsmLine.encode 0 0 16 0 0 0).wellFormed = false := by decide
theorem test_temperature_too_wide : (AsmLine.encode 0 0 0 64 0 0).wellFormed = false := by decide
theorem test_on_timer_too_wide : (AsmLine.encode 0 0 0 0 4096 0).wellFormed = false := by decide
theorem test_off_timer_too_wide : (AsmLine.encode 0 0 0 0 0 4096).wellFormed = false := by decide
theorem test_every_field_at_its_maximum : (AsmLine.encode 255 15 15 63 4095 4095).wellFormed = true := by decide
theorem test_duration_too_wide : (AsmLine.feed .L 4294967296).wellFormed = false := by decide
theorem test_frame_too_short : (AsmLine.parse (List.replicate 52 0)).wellFormed = false := by decide
theorem test_frame_byte_too_wide : (AsmLine.parse (256 :: List.replicate 52 0)).wellFormed = false := by decide

/-- E8, E9, D53, C4, C5, P12, C6, C3: a reserved bit is 1. -/
theorem test_reserved_bits_are_found : ∀ w ∈ ([0x0000000000400000, 0x0001000000195013, 0x400001000000019A,
    0x4000000200000000, 0x0000000000800000, 0x8000000000000001, 0xA000000000000000, 0xC000000000000001] :
    List (BitVec 64)), reservedClear (opOf w) w = false := by
  intro w hw
  simp only [List.mem_cons, List.not_mem_nil, or_false] at hw
  rcases hw with rfl | rfl | rfl | rfl | rfl | rfl | rfl | rfl <;> decide

/-! ### Decoding: words of the spec -/

theorem test_decode_E2 : decode 0x0000FFF001163613 = .ok (.encode ⟨0x13, 6, 3, 22, 1, 4095⟩) := by decide
theorem test_decode_E3 : decode 0x0000001FFF3F1342 = .ok (.encode ⟨0x42, 3, 1, 63, 4095, 1⟩) := by decide
theorem test_decode_D3 : decode 0x40000001FFFFFFFF = .ok (.feed .H 4294967295) := by decide
theorem test_decode_D9 : decode 0x4000000000000C80 = .ok (.feed .L 3200) := by decide
theorem test_decode_P1 : decode 0x8000000000000000 = .ok .parse := by decide
theorem test_decode_C1 : decode 0xC000000000000000 = .ok .reset := by decide
theorem test_decode_D53 : decode 0x400001000000019A = .error (.reservedBits .feed) := by decide
theorem test_decodeTableWord_feed : decodeTableWord 64 0x400000000000733C = some (.feed .L 29500) := by decide

/-! ### One operation each -/

/-- E5: the serializer's variable bytes. -/
theorem test_encode_E5 : ((serialize ex ⟨0xFF, 0xF, 0xF, 31, 0x800, 0x010⟩).toList.drop 4).take 9 =
    [0xFF, 0x7C, 0x00, 0x00, 0x01, 0x00, 0x38, 0xFF, 0xF0] := by decide

/-- L1-1: FRAME_OUT as one number. -/
theorem test_encode_F1 : busOf (encodeFrame ex c1) =
    0x00FF00FF00FF00FFFF00FF007788FE01FC037F80FF00FF001EE1A956FF00FF00FF00FF00FF009B64EC136D9233CC00FFBF40001001 := by
  decide

/-- P3: the command and no warning. -/
theorem test_parse_P3 :
    let raw : Raw := #v[0x40, 0xFF, 0xCC, 0x92, 0x13, 0x64, 0, 0, 0, 0xBC, 0x2A, 0x53, 0xF1, 0, 0, 0x80, 3, 1, 0x88,
      0, 0, 0xFF, 0xFF, 0xFF, 0xFF]
    (deserialize ex raw).pack = 0x000ABC195313 ∧ fieldWarnings ex raw = 0 := by decide

/-- P10: unassigned bits and false enable flags. -/
theorem test_parse_P10 :
    let raw := ((serialize ex c1).set 7 0x0F).set 10 0xF0
    (deserialize ex raw).pack = 0x000000195013 ∧ fieldWarnings ex raw = 0x0000480 := by decide

/-- D31: the response word and the decoder. -/
theorem test_feed_D31 : rsp (exec (.feed .L 471) (at_ dataStart)) = some 0x75E23 ∧
    dec (exec (.feed .L 471) (at_ dataStart)) = some Decoder.init := by decide

/-- D50: a redundancy mismatch at position 4. -/
theorem test_feed_D50 :
    let d := midFrame (encodeFrame ex c1) 4 7 0x3E false
    rsp (exec (.feed .H 1258) (at_ d)) = some 0x17C8024 ∧ dec (exec (.feed .H 1258) (at_ d)) = some Decoder.init := by
  decide

/-- C2: RESET in the middle of a frame. -/
theorem test_reset_C2 :
    let d := midFrame (encodeFrame ex c1) 0 1 1 true
    rsp (exec .reset (at_ d)) = some 0 ∧ dec (exec .reset (at_ d)) = some Decoder.init := by decide

/-- C4: an illegal request, and the decoder as it was. -/
theorem test_illegal_C4 :
    let s := (port [0x4000000200000000]).withDec dataStart
    rsp (step s) = some 0xF ∧ dec (step s) = some dataStart := by decide

/-! ### Witnesses: request words -/

theorem witness_decode_of_encode : (Instr.encode ⟨255, 15, 15, 63, 4095, 4095⟩).wellFormed = true ∧
    (Instr.feed .H 4294967295).wellFormed = true := by decide

theorem witness_encode_of_decode : decode 0x0000FFFFFF3FFFFF = .ok (.encode ⟨255, 15, 15, 63, 4095, 4095⟩) := by decide

theorem witness_operand_fields : decode 0x0000FFFFFF3FFFFF = .ok (.encode ⟨255, 15, 15, 63, 4095, 4095⟩) ∧
    decode 0x40000001FFFFFFFF = .ok (.feed .H 4294967295) ∧ decode 0x4000000000000000 = .ok (.feed .L 0) ∧
    decode 0x8000000000000000 = .ok .parse ∧ decode 0xC000000000000000 = .ok .reset := by decide

theorem witness_assembler_lines :
    ((AsmLine.encode 255 15 15 63 4095 4095).request 0).isSome ∧ ((AsmLine.feed .H 4294967295).request 0).isSome ∧
    ((AsmLine.parse (List.replicate 53 255)).request 0).isSome ∧ (AsmLine.reset.request 0).isSome := by decide

/-! ### Witnesses: one step -/

theorem witness_step_runs : (port [0x400000000000733C]).waiting = ⟨0x400000000000733C, 0⟩ :: [] ∧
    decode 0x400000000000733C = .ok (.feed .L 29500) := by decide

theorem witness_illegal_request : (port [0xC000000000000001]).waiting = ⟨0xC000000000000001, 0⟩ :: [] ∧
    reservedClear (opOf 0xC000000000000001) 0xC000000000000001 = false := by decide

theorem witness_no_request : State.reset.waiting = [] := by decide

theorem dataStart_inv : dataStart.Inv :=
  ⟨fun h => absurd rfl h, by decide, by decide, by decide, by decide, by decide⟩

theorem midFrame_inv : (midFrame plain 52 7 0x7F false).Inv :=
  ⟨fun h => absurd rfl h, by decide, by decide, by decide, by decide, by decide⟩

/-- EveryRequestEndsWithOneResponse, AllWaitingRequestsAreServed, EveryStepKeepsTheInvariant. -/
theorem witness_request_from_the_invariant :
    let s := (port [0x400000000000019A, 0x400000010000050B]).withDec dataStart
    s.dec.Inv ∧ s.waiting = ⟨0x400000000000019A, 0⟩ :: [⟨0x400000010000050B, 0⟩] ∧ ∃ t, step s = .next t :=
  ⟨dataStart_inv, rfl, _, rfl⟩

/-- KindDeterminesTheBusesDriven: kind 0 by each of its operations, 1, 3, 4 and 7. -/
theorem witness_kinds :
    (answer (step (port [0]))).map Response.kind = some 0 ∧
    (answer (step (port [0x8000000000000000]))).map Response.kind = some 0 ∧
    (answer (step (port [0xC000000000000000]))).map Response.kind = some 0 ∧
    (answer (step (port [0x400000000000733C]))).map Response.kind = some 1 ∧
    (answer (step (port [0x4000000000000C80]))).map Response.kind = some 3 ∧
    (answer (step ((port [0x40000001000001A8]).withDec (midFrame plain 52 7 0x7F false)))).map Response.kind = some 4 ∧
    (answer (step (port [0x0000000000400000]))).map Response.kind = some 7 := by decide

/-- The event that completes `plain`. -/
theorem plain_completes : FeedEffect (midFrame plain 52 7 0x7F false) .H 1258 Decoder.init
    (parseResponse Config.params .frameComplete plain) :=
  .complete true 0xFF 0 plain ⟨rfl, rfl, rfl, rfl⟩ rfl (by decide) rfl rfl (by decide) (by decide) (by decide)

/-- KindDeterminesTheBusesDriven, kind 2; DecoderBecomesInitOnlyAtTheListedEvents, a frame's completion. -/
theorem witness_kind_frame_complete : ∃ t r,
    step ((port [0x40000001000004EA]).withDec (midFrame plain 52 7 0x7F false)) = .next t ∧ t.response = some r ∧
      r.kind = 2 ∧ midFrame plain 52 7 0x7F false ≠ Decoder.init ∧ t.dec = Decoder.init := by
  refine ⟨_, _, feed_of_effect (s := ((port [0x40000001000004EA]).withDec (midFrame plain 52 7 0x7F false)).accept
    ⟨0x40000001000004EA, 0⟩ []) plain_completes, rfl, ?_, by decide, rfl⟩
  decide

/-! ### Witnesses: ENCODE and PARSE -/

theorem witness_constant_positions : rawConst[(0 : Fin 25)] = some 0x40 ∧ rawConst[(24 : Fin 25)] = some 0xFF := by
  decide

/-- EncodePacksTheCommandFields. -/
theorem witness_encode_answers : ∃ t r out, exec (.encode ⟨255, 15, 15, 63, 4095, 4095⟩) (at_ dataStart) = .next t ∧
    t.response = some r ∧ r.frameOut = some out := ⟨_, _, _, rfl, rfl, rfl⟩

/-- EncodeSendsOffAsHeatingWithClassE1: a mode of each class, OFF apart from the others, and one of no class. -/
theorem witness_encode_modes :
    (∀ m : BitVec 4, ∃ t r out, exec (.encode ⟨0, m, 0, 0, 0, 0⟩) (at_ dataStart) = .next t ∧ t.response = some r ∧
      r.frameOut = some out) ∧
    Config.params.modeHeating ≠ Config.params.modeOff ∧ Config.params.modeCooling ≠ Config.params.modeOff ∧
    ∃ m, m ≠ Config.params.modeOff ∧ m ≠ Config.params.modeHeating ∧ m ≠ Config.params.modeCooling := by
  refine ⟨fun m => ⟨_, _, _, rfl, rfl, rfl⟩, Config.params.off_ne_heating.symm, Config.params.off_ne_cooling.symm, ?_⟩
  generalize Config.params.modeOff = a, Config.params.modeHeating = b, Config.params.modeCooling = c
  by_contra h
  simp only [not_exists, not_and, not_not] at h
  have h0 := h 0
  have h1 := h 1
  have h2 := h 2
  have h3 := h 3
  bv_omega

theorem witness_encode_and_parse : (Instr.encode c1).op = .encode ∧ Instr.parse.op = .parse := by decide

/-- ParseReconstructsTheCommand: both cases of the class byte. -/
theorem witness_class_bytes : byteOf (busOf (encodeFrame ex c1)) 27 = 0xE1 ∧ byteOf (0 : BitVec 424) 27 ≠ 0xE1 := by
  decide

/-- ParseWarnsWhereReencodingDiffers, VariablePositionsWarnInTheListedCases. -/
theorem witness_parse_then_encode : ∃ t u r r' cmd warn out, exec .parse State.reset = .next t ∧
    t.response = some r ∧ r.cmdOut = some cmd ∧ r.warnOut = some warn ∧
    exec (.encode (Command.unpack cmd)) t = .next u ∧ u.response = some r' ∧ r'.frameOut = some out :=
  ⟨_, _, _, _, _, _, _, rfl, rfl, rfl, rfl, rfl, rfl, rfl⟩

theorem witness_same_data_bytes : (0 : BitVec 424) ≠ 1 ∧
    ∀ i : Fin 25, byteOf (0 : BitVec 424) (2 * i + 3) = byteOf (1 : BitVec 424) (2 * i + 3) := by decide

/-- ParseOfEncodeIsTheCommand; EncodedCommandSurvivesTheWire, its first three hypotheses. -/
theorem witness_encode_then_parse : ∃ t r out, exec (.encode c1) State.reset = .next t ∧ t.response = some r ∧
    r.frameOut = some out := ⟨_, _, _, rfl, rfl, rfl⟩

/-- WarningFreePayloadReencodesToItself: the frame of the command that is OFF with every other field 0. -/
theorem witness_warning_free : ∃ s t u r r' cmd out, exec .parse s = .next t ∧ t.response = some r ∧
    r.cmdOut = some cmd ∧ r.warnOut = some 0 ∧ exec (.encode (Command.unpack cmd)) t = .next u ∧
    u.response = some r' ∧ r'.frameOut = some out := by
  let c : Command := ⟨0, Config.params.modeOff, 0, 0, 0, 0⟩
  have hw : fieldWarnings Config.params (dataBytes (frameOfBus (busOf (encodeFrame Config.params c)))) = 0 := by
    rw [frameOfBus_busOf, encodeFrame, dataBytes_double, fieldWarnings, warnMask_eq_zero]
    refine congrArg (serialize Config.params) (?_ : c = deserialize Config.params (serialize Config.params c))
    have htemp := deserialize_temp Config.params (serialize Config.params c)
    have hfan := deserialize_fan Config.params (serialize Config.params c)
    have hton := deserialize_ton Config.params (serialize Config.params c)
    have htoff := deserialize_toff Config.params (serialize Config.params c)
    rw [serialize_temp] at htemp
    rw [serialize_fan_mode] at hfan
    rw [serialize_flags, serialize_ton_low] at hton
    rw [serialize_toff_high, serialize_toff_low] at htoff
    have hn := (modeNibble Config.params c.mode).isLt
    have hm := deserialize_mode_off Config.params (serialize Config.params c) (if_pos rfl)
    generalize hd : deserialize Config.params (serialize Config.params c) = d at *
    have hu : d.upd = 0 := by rw [← hd]; rfl
    obtain ⟨u, m, f, te, on, off⟩ := d
    simp only [c, Command.mk.injEq] at *
    refine ⟨hu.symm, hm.symm, ?_, ?_, ?_, ?_⟩ <;> apply BitVec.eq_of_toNat_eq <;> simp_all
    omega
  exact ⟨{ State.reset with frameIn := busOf (encodeFrame Config.params c) }, _, _, _, _, _, _, rfl, rfl, rfl,
    congrArg some hw, rfl, rfl, rfl⟩

/-- ParseOfTheZeroFrame: its hypotheses, and that each case of the parameter is admissible. -/
theorem witness_zero_frame : (∃ t r, State.reset.frameIn = 0 ∧ exec .parse State.reset = .next t ∧
    t.response = some r) ∧ (∃ p : Params, p.modeOff = 0) ∧ ∃ p : Params, p.modeOff ≠ 0 :=
  ⟨⟨_, _, rfl, rfl, rfl⟩, ⟨ex, rfl⟩, ⟨{ modeOff := 5 }, by decide⟩⟩

/-! ### Witnesses: FEED -/

theorem witness_idle : State.reset.dec.stage = .idle := by decide

theorem witness_preamble : (∀ st, (at_ (Decoder.init.setStage st)).dec.stage = st) ∧
    28000 ≤ (31000 : Duration).toNat ∧ (31000 : Duration).toNat ≤ 31000 ∧ 48000 ≤ (48000 : Duration).toNat ∧
    (48000 : Duration).toNat ≤ 51000 ∧ 3300 ≤ (3500 : Duration).toNat ∧ (3500 : Duration).toNat ≤ 3500 ∧
    1600 ≤ (1700 : Duration).toNat ∧ (1700 : Duration).toNat ≤ 1700 := ⟨fun _ => rfl, by decide⟩

theorem witness_dataMode_begins :
    let s := at_ (Decoder.init.setStage .syncBit)
    s.dec.Inv ∧ s.dec.stage = .syncBit ∧ ∃ t, exec (.feed .H 1700) s = .next t ∧ t.dec.stage = .dataMode :=
  ⟨⟨fun _ => rfl, by decide, by decide, by decide, by decide, by decide⟩, rfl, _, rfl, rfl⟩

/-- ToleranceViolationExactlyOnAMisfit, PendingOnlyWhenTheEventIsTaken, AcceptedDataModeEventInvertsCarrier. -/
theorem witness_takes : ¬ dataStart.Takes .L 471 ∧ dataStart.Takes .L 470 ∧ dataStart.stage = .dataMode ∧
    ∃ t r, exec (.feed .L 470) (at_ dataStart) = .next t ∧ t.response = some r ∧ r.kind = 1 :=
  ⟨fun h => h.elim (by decide) (by decide), .inr (by decide), rfl, _, _, rfl, rfl, rfl⟩

theorem witness_bit_mark : (at_ dataStart).dec.stage = .dataMode ∧ (at_ dataStart).dec.carrier = true ∧
    400 ≤ (400 : Duration).toNat ∧ (470 : Duration).toNat ≤ 470 := by decide

theorem witness_bit_space : (at_ (midFrame plain 0 6 0 false)).dec.stage = .dataMode ∧
    (at_ (midFrame plain 0 6 0 false)).dec.carrier = false ∧ (at_ (midFrame plain 0 6 0 false)).dec.nbits.toNat < 7 ∧
    isBit true 1290 = true ∧ isBit false 390 = true := by decide

/-- HeaderAndDataBytesAreStored: the last header byte, the first data byte and the last one. -/
theorem witness_bytes_stored : (∀ k : BitVec 6, (midFrame plain k 7 0x7F false).Completes true 0xFF) ∧
    isBit true 1230 = true ∧ (midFrame plain 2 7 0x7F false).byteIndex.toNat < 3 ∧
    (3 ≤ (midFrame plain 3 7 0x7F false).byteIndex.toNat ∧ (midFrame plain 3 7 0x7F false).check = false) ∧
    ((midFrame plain 51 7 0x7F false).byteIndex.toNat < 53 ∧ (midFrame plain 51 7 0x7F false).check = false) :=
  ⟨fun _ => ⟨rfl, rfl, rfl, show (0xFF : Byte) = 0x7F ||| 0x80 by decide⟩, by decide, by decide, by decide, by decide⟩

/-- PassingCheckByteIsStored (positions 4 and 50), FailingCheckByteIsAMismatch (4 and 52, the byte 0x7F). -/
theorem witness_check_bytes : (∀ k ∈ ([4, 50, 52] : List (BitVec 6)), 3 ≤ (midFrame plain k 7 0x7F false).byteIndex.toNat ∧
      (midFrame plain k 7 0x7F false).byteIndex.toNat < 53 ∧ (midFrame plain k 7 0x7F false).check = true ∧
      readCell (midFrame plain k 7 0x7F false).buf ((midFrame plain k 7 0x7F false).byteIndex.toNat - 1) = some 0) ∧
    (midFrame plain 50 7 0x7F false).byteIndex.toNat < 52 ∧ (0xFF : Byte) = ~~~ 0 ∧ (0x7F : Byte) ≠ ~~~ 0 ∧
    isBit true 1258 = true ∧ isBit false 424 = true ∧
    (midFrame plain 4 7 0x7F false).Completes true 0xFF ∧ (midFrame plain 52 7 0x7F false).Completes false 0x7F :=
  ⟨by decide, by decide, by decide, by decide, by decide, by decide, ⟨rfl, rfl, rfl, rfl⟩, ⟨rfl, rfl, rfl, rfl⟩⟩

theorem witness_last_check_byte :
    let s := at_ (midFrame plain 52 7 0x7F false)
    s.dec.Completes true plain[52] ∧ isBit true 1258 = true ∧ s.dec.byteIndex = 52 ∧ s.dec.check = true ∧
    (∀ k : Fin 52, readCell s.dec.buf k = some plain[k.val]) ∧ plain[52] = ~~~ plain[51] ∧
    ∃ u r, exec .parse { s with frameIn := busOf plain } = .next u ∧ u.response = some r :=
  ⟨⟨rfl, rfl, rfl, by decide⟩, by decide, rfl, rfl, by decide, by decide, _, _, rfl, rfl⟩

theorem witness_frame_completes : (at_ (midFrame plain 52 7 0x7F false)).dec.Inv ∧
    ∃ t r, exec (.feed .H 1258) (at_ (midFrame plain 52 7 0x7F false)) = .next t ∧ t.response = some r ∧ r.kind = 2 :=
  ⟨midFrame_inv, _, _, feed_of_effect (s := at_ (midFrame plain 52 7 0x7F false)) plain_completes, rfl,
    kind_commandResponse _ _ _ _⟩

theorem witness_no_early_frame : ∃ rsps t r, (port [0x400000000000733C]).dec = Decoder.init ∧
    1 ≤ (port [0x400000000000733C]).waiting.length ∧ 1 ≤ 851 ∧
    trace 1 (port [0x400000000000733C]) = some (rsps, t) ∧ some r ∈ rsps :=
  ⟨_, _, _, rfl, by decide, by decide, rfl, List.mem_cons_self⟩

theorem witness_feed_answers : (at_ dataStart).dec.Inv := dataStart_inv

theorem witness_feed_depends : (at_ dataStart).dec = ((port [0]).withDec dataStart).dec ∧
    at_ dataStart ≠ (port [0]).withDec dataStart ∧ ∃ t, exec (.feed .L 410) (at_ dataStart) = .next t :=
  ⟨rfl, by decide, _, rfl⟩

/-- AcceptedDataModeEventInvertsCarrier, the case of a space; BoundaryDurationsAcceptAndReject. -/
theorem witness_space : (midFrame plain 0 0 0 false).stage = .dataMode ∧ (midFrame plain 0 0 0 false).carrier = false ∧
    dataStart.carrier = true ∧ (answer (exec (.feed .H 1289) (at_ (midFrame plain 0 0 0 false)))).map Response.kind =
      some 1 := by decide

/-! ### Witnesses: transmissions -/

theorem requests_words (is : List Instr) : wordsAre (requests is) is := by
  simp [wordsAre, requests, Instr.request]

theorem plain_paired : Frame.Paired plain := by unfold Frame.Paired; decide

/-- A state whose port holds these instructions. -/
def sends (d : Decoder) (is : List Instr) : State := (at_ d).withRequests (requests is)

theorem sends_waiting (d : Decoder) (is : List Instr) : (sends d is).waiting = requests is ++ [] := by
  simp [sends, State.withRequests]

theorem witness_byte_stored :
    let s := sends (midFrame plain 2 0 0 true) (feedByte 0xA5)
    s.waiting = requests (feedByte 0xA5) ++ [] ∧ wordsAre (requests (feedByte 0xA5)) (feedByte 0xA5) ∧
    s.dec.stage = .dataMode ∧ s.dec.carrier = true ∧ s.dec.acc = 0 ∧ s.dec.nbits = 0 ∧ s.dec.byteIndex.toNat < 3 :=
  ⟨sends_waiting _ _, requests_words _, rfl, rfl, rfl, rfl, by decide⟩

/-- ReferenceTransmissionDecodes, InvertedPolarityNeverLeavesIdle (with the mapped words). -/
theorem witness_transmission : Frame.Paired plain ∧ (sends Decoder.init (send plain)).dec = Decoder.init ∧
    (sends Decoder.init (send plain)).waiting = requests (send plain) ++ [] ∧
    wordsAre (requests (send plain)) (send plain) ∧
    (∀ flip : Instr → Instr, wordsAre (requests ((send plain).map flip)) ((send plain).map flip)) ∧ 852 ≤ 852 ∧
    ∃ u r, exec .parse { sends Decoder.init (send plain) with frameIn := busOf plain } = .next u ∧ u.response = some r :=
  ⟨plain_paired, rfl, sends_waiting _ _, requests_words _, fun _ => requests_words _, le_rfl, _, _, rfl, rfl⟩

theorem witness_command_on_the_wire : ∃ t r out, exec (.encode c1) State.reset = .next t ∧ t.response = some r ∧
    r.frameOut = some out ∧ (sends Decoder.init (send (frameOfBus out))).dec = Decoder.init ∧
    (sends Decoder.init (send (frameOfBus out))).waiting = requests (send (frameOfBus out)) ++ [] ∧
    wordsAre (requests (send (frameOfBus out))) (send (frameOfBus out)) :=
  ⟨_, _, _, rfl, rfl, rfl, rfl, sends_waiting _ _, requests_words _⟩

/-- TransmissionAfterAnErrorDecodes: after a violation and after a mismatch. -/
theorem witness_error_then_transmission : ∀ d ∈ ([dataStart, midFrame plain 52 7 0x7F false] : List Decoder),
    let s := sends d (.feed .H 424 :: send plain)
    s.waiting = (Instr.feed .H 424).request 0 :: (requests (send plain) ++ []) ∧
    (∃ s1 r, step s = .next s1 ∧ s1.response = some r ∧ (r.kind = 3 ∨ r.kind = 4) ∧
      ∃ u r', exec .parse { s1 with frameIn := busOf plain } = .next u ∧ u.response = some r') ∧
    Frame.Paired plain ∧ wordsAre (requests (send plain)) (send plain) := by
  intro d hd
  refine ⟨by simp [sends, State.withRequests, requests], ?_, plain_paired, requests_words _⟩
  simp only [List.mem_cons, List.not_mem_nil, or_false] at hd
  rcases hd with rfl | rfl
  · exact ⟨_, _, rfl, rfl, .inl (by decide), _, _, rfl, rfl⟩
  · exact ⟨_, _, rfl, rfl, .inr (by decide), _, _, rfl, rfl⟩

theorem witness_mid_stream :
    let noise : List (Level × Duration) := [(.H, 49500), (.L, 27999), (.L, 410)]
    let ns := requests (noise.map fun e => .feed e.1 e.2)
    let s := (at_ Decoder.init).withRequests (ns ++ (requests (send plain) ++ []))
    s.dec = Decoder.init ∧ s.waiting = ns ++ (requests (send plain) ++ []) ∧
    wordsAre ns (noise.map fun e => .feed e.1 e.2) ∧
    (∀ e ∈ noise, WindowId.leaderMark.fits e.1 e.2 = false) ∧ Frame.Paired plain ∧
    wordsAre (requests (send plain)) (send plain) ∧
    ∃ u r, exec .parse { s with frameIn := busOf plain } = .next u ∧ u.response = some r :=
  ⟨rfl, rfl, requests_words _, by decide, plain_paired, requests_words _, _, _, rfl, rfl⟩

/-- ViolationsCarryTheNumbersOfTheTable: each row just outside its window. -/
theorem witness_violation_rows : (∀ st, (at_ (Decoder.init.setStage st)).dec.stage = st) ∧
    ¬ (28000 ≤ (27999 : Duration).toNat ∧ (27999 : Duration).toNat ≤ 31000) ∧
    ¬ (48000 ≤ (51001 : Duration).toNat ∧ (51001 : Duration).toNat ≤ 51000) ∧
    ¬ (3300 ≤ (3299 : Duration).toNat ∧ (3299 : Duration).toNat ≤ 3500) ∧
    ¬ (1600 ≤ (1701 : Duration).toNat ∧ (1701 : Duration).toNat ≤ 1700) ∧
    (at_ dataStart).dec.carrier = true ∧ ¬ (400 ≤ (471 : Duration).toNat ∧ (471 : Duration).toNat ≤ 470) ∧
    (at_ (dataStart.setCarrier false)).dec.stage = .dataMode ∧
    (at_ (dataStart.setCarrier false)).dec.carrier = false ∧
    ¬ ((390 ≤ (451 : Duration).toNat ∧ (451 : Duration).toNat ≤ 450) ∨
      (1230 ≤ (451 : Duration).toNat ∧ (451 : Duration).toNat ≤ 1290)) := ⟨fun _ => rfl, by decide⟩

/-! ### Witnesses: RESET and the life of the decoder state -/

theorem witness_idempotent : (Instr.encode c1).op ≠ .feed ∧ Instr.parse.op ≠ .feed ∧ Instr.reset.op ≠ .feed ∧
    ∀ i ∈ ([.encode c1, .parse, .reset] : List Instr), ∃ t, exec i (at_ dataStart) = .next t := by
  refine ⟨by decide, by decide, by decide, fun i hi => ?_⟩
  simp only [List.mem_cons, List.not_mem_nil, or_false] at hi
  rcases hi with rfl | rfl | rfl <;> exact ⟨_, rfl⟩

/-- DecoderBecomesInitOnlyAtTheListedEvents: RESET and a violation from a decoder that is not INIT. -/
theorem witness_becomes_init : dataStart ≠ Decoder.init ∧
    dec (step ((port [0xC000000000000000]).withDec dataStart)) = some Decoder.init ∧
    dec (step ((port [0x40000000000001D7]).withDec dataStart)) = some Decoder.init := by decide

/-- InterleavedRequestsDoNotDisturbTheDecode: a FEED, an ENCODE, an illegal request, a PARSE and a RESET. -/
theorem witness_interleaved :
    let rs := requests [.feed .L 29500, .encode c1] ++ [⟨0x400001000000019A, 0⟩] ++ requests [.parse, .reset]
    ∃ rsps t, trace rs.length (State.reset.withRequests rs) = some (rsps, t) := ⟨_, _, rfl⟩

end Sys2Proof.Tests
end

section
/-! SUPPORT. ENCODE and PARSE as response-only operations (10_state.md R36). -/

namespace Sys2Proof.Machine

theorem exec_encode (c : Command) (s : State) :
    exec (.encode c) s = finish s (frameResponse (encodeFrame Config.params c)) := rfl

theorem exec_parse (s : State) :
    exec .parse s = finish s (parseResponse Config.params .done s.frameOperand) := rfl

@[simp] theorem frameOperand_withDec (s : State) (d : Decoder) : (s.withDec d).frameOperand = s.frameOperand := rfl

theorem finish_withDec (s : State) (d : Decoder) (r : Response) :
    finish (s.withDec d) r = .next { s with dec := d, response := some r } := rfl

/-- Settles O21: ENCODE's response is made of its operand and PARSE's of FRAME_IN, neither of which the decoder
record holds, and `finish` writes the response port only. -/
theorem encodeAndParseDoNotTouchTheDecoder : Obligations.EncodeAndParseDoNotTouchTheDecoder := by
  intro i s hop
  cases i with
  | encode c =>
    refine ⟨frameResponse (encodeFrame Config.params c), fun d => ?_⟩
    rw [exec_encode, finish_withDec]
  | parse =>
    refine ⟨parseResponse Config.params .done s.frameOperand, fun d => ?_⟩
    rw [exec_parse, frameOperand_withDec, finish_withDec]
  | feed lv d => simp [Instr.op] at hop
  | reset => simp [Instr.op] at hop

end Sys2Proof.Machine
end

section
/-! SUPPORT. The frame ENCODE drives, and the mode's nibble and class in it (30_encoding.md R82, R83). -/

namespace Sys2Proof.Machine

@[simp] theorem frameOut_frameResponse (f : Frame) : (frameResponse f).frameOut = some (busOf f) := rfl

/-- Whatever frame a run of ENCODE drives on FRAME_OUT is the encoded frame of its command. -/
theorem frameOut_of_exec_encode {c : Command} {s t : State} {rsp : Response} {out : BitVec 424}
    (hexec : exec (.encode c) s = .next t) (hrsp : t.response = some rsp) (hout : rsp.frameOut = some out) :
    out = busOf (encodeFrame Config.params c) := by
  rw [exec_encode, finish_eq] at hexec
  obtain rfl := Host.Outcome.next.inj hexec
  obtain rfl := Option.some.inj hrsp
  rw [frameOut_frameResponse] at hout
  exact (Option.some.inj hout).symm

/-- Payload byte `i` of a command stands at position `2i+3` of its frame (30_encoding.md R78). -/
theorem byteOf_encodeFrame_data (p : Params) (c : Command) (i : Nat) (h : i < 25) :
    byteOf (busOf (encodeFrame p c)) (2 * i + 3) = (serialize p c)[i] := by
  rw [byteOf_busOf _ _ (by omega)]
  exact double_data p (serialize p c) i h

theorem serialize_mode_low_nibble (p : Params) (c : Command) :
    (serialize p c)[11].extractLsb' 0 4 = modeNibble p c.mode := by
  apply BitVec.eq_of_toNat_eq
  have hn := (modeNibble p c.mode).isLt
  rw [BitVec.extractLsb'_toNat, serialize_fan_mode, Nat.shiftRight_zero]
  omega

section Mode
variable {p : Params} {mode : BitVec 4}

theorem modeNibble_off (h : mode = p.modeOff) : modeNibble p mode = p.modeHeating := if_pos h

theorem modeNibble_of_ne_off (h : mode ≠ p.modeOff) : modeNibble p mode = mode := if_neg h

theorem modeClass_off (h : mode = p.modeOff) : modeClass p mode = 0xE1 := if_pos h

/-- HEATING and COOLING are not OFF, because the three codes are distinct (70_reset_and_hazards.md R263). -/
theorem modeClass_heating_or_cooling (h : mode = p.modeHeating ∨ mode = p.modeCooling) :
    modeClass p mode = 0xF1 := by
  have hoff : mode ≠ p.modeOff := by
    rcases h with rfl | rfl
    · exact p.off_ne_heating.symm
    · exact p.off_ne_cooling.symm
  rw [modeClass, if_neg hoff, if_pos h]

theorem modeClass_other (hoff : mode ≠ p.modeOff) (hheat : mode ≠ p.modeHeating) (hcool : mode ≠ p.modeCooling) :
    modeClass p mode = 0xF0 := by
  rw [modeClass, if_neg hoff, if_neg (not_or.mpr ⟨hheat, hcool⟩)]

end Mode

/-- Settles O20: frame bytes 25 and 27 are payload bytes 11 and 12, whose nibble and class are `modeNibble` and
`modeClass` of the command's mode. -/
theorem encodeSendsOffAsHeatingWithClassE1 : Obligations.EncodeSendsOffAsHeatingWithClassE1 := by
  intro c s t rsp out hexec hrsp hout
  have hnibble : (byteOf out 25).extractLsb' 0 4 = modeNibble Config.params c.mode := by
    rw [frameOut_of_exec_encode hexec hrsp hout, byteOf_encodeFrame_data _ _ 11 (by decide),
      serialize_mode_low_nibble]
  have hclass : byteOf out 27 = modeClass Config.params c.mode := by
    rw [frameOut_of_exec_encode hexec hrsp hout, byteOf_encodeFrame_data _ _ 12 (by decide), serialize_class]
  simp only [hnibble, hclass]
  exact ⟨fun h => ⟨modeNibble_off h, modeClass_off h⟩, modeNibble_of_ne_off, modeClass_heating_or_cooling,
    modeClass_other⟩

end Sys2Proof.Machine
end

section
/-! SUPPORT. The byte a completed space stores: header bytes, data bytes and passing check bytes
(41_decoder.md R161 to R163, R167). -/

namespace Sys2Proof.Machine

/-- `feed_stores` with every field of the next state written out, the fields that FEED keeps among them. -/
theorem feed_stores_next {s : State} {d : Duration} {b : Bool} {v : Byte} {c : Bool} (hv : s.dec.Completes b v)
    (hb : isBit b d = true) (h53 : s.dec.byteIndex.toNat < 53) (hst : Stores s.dec v c) :
    exec (.feed .H d) s = .next { s with
      dec := { s.dec with carrier := true, acc := 0, nbits := 0, byteIndex := s.dec.byteIndex + 1, check := c,
                          buf := s.dec.buf.setIfInBounds s.dec.byteIndex.toNat (some v) }
      response := some (bareResponse .pending) } := by
  rw [feed_stores hv hb h53 hst, pend_eq]
  rfl

/-- Settles O37: a header byte is stored and keeps `check`, a data byte is stored and sets it. -/
theorem headerAndDataBytesAreStored : Obligations.HeaderAndDataBytesAreStored := by
  intro s d b v hv hb
  refine ⟨fun h3 => ?_, fun h3 h53 hk => ?_⟩
  · have hheader : Stores s.dec v s.dec.check := .inl ⟨h3, rfl⟩
    exact feed_stores_next hv hb (by omega) hheader
  · have hdata : Stores s.dec v true := .inr (.inl ⟨h3, hk, rfl⟩)
    exact feed_stores_next hv hb h53 hdata

/-- Settles O38: a check byte before position 52 that is the complement of its data byte is stored and clears
`check`, and does not complete the frame. -/
theorem passingCheckByteIsStored : Obligations.PassingCheckByteIsStored := by
  intro s d b v dv hv hb h3 h52 hk hcell hcompl
  have hlast : s.dec.byteIndex ≠ 52 := fun h => absurd (h ▸ h52) (by decide)
  have hcheck : Stores s.dec v false :=
    .inr (.inr ⟨h3, hk, rfl, hlast, dv, hcell, hcompl.trans (xor_ff_eq_not dv).symm⟩)
  exact feed_stores_next hv hb (by omega) hcheck

end Sys2Proof.Machine
end

section
/-! SUPPORT. PARSE's answer as a function of the data bytes of FRAME_IN (42_parser.md R191). -/

namespace Sys2Proof.Machine

theorem dataBytes_frameOfBus_congr {a b : BitVec 424}
    (h : ∀ i : Fin 25, byteOf a (2 * i + 3) = byteOf b (2 * i + 3)) :
    dataBytes (frameOfBus a) = dataBytes (frameOfBus b) := by
  apply Vector.ext
  intro i hi
  rw [dataBytes_frameOfBus a i hi, dataBytes_frameOfBus b i hi]
  exact h ⟨i, hi⟩

/-- A parse response, of PARSE or of a completed frame, depends on the frame through its data bytes alone. -/
theorem parseResponse_congr (p : Params) (r : Reply) {f g : Frame} (h : dataBytes f = dataBytes g) :
    parseResponse p r f = parseResponse p r g := by
  rw [parseResponse, parseResponse, h]

theorem exec_parse_frameIn (s : State) (b : BitVec 424) :
    exec .parse { s with frameIn := b } =
      .next { s with frameIn := b, response := some (parseResponse Config.params .done (frameOfBus b)) } := by
  rw [exec_parse, finish_eq, State.frameOperand]

/-- Settles O25: PARSE's response is made of the data bytes of FRAME_IN, so two frames with the same data bytes
get the same one. -/
theorem parseReadsOnlyTheDataBytes : Obligations.ParseReadsOnlyTheDataBytes := by
  intro s a b hdata
  refine ⟨parseResponse Config.params .done (frameOfBus a), exec_parse_frameIn s a, ?_⟩
  have hresponse := parseResponse_congr Config.params .done (dataBytes_frameOfBus_congr hdata)
  rw [exec_parse_frameIn, hresponse]

end Sys2Proof.Machine
end

section
/-! SUPPORT. How a request is served, as a relation on the decoder record: the rule every statement about
steps and runs goes through. -/

namespace Sys2Proof.Machine

/-- Everything a step can do with the request `r` first on the port while the decoder holds `d`: the decoder
and the response it leaves. -/
inductive Serves (d : Decoder) (r : Request) : Decoder → Response → Prop
  | illegal (op : Op) : decode r.word = .error (.reservedBits op) →
      Serves d r d (bareResponse (.illegalRequest op))
  | encode (c : Command) : decode r.word = .ok (.encode c) →
      Serves d r d (frameResponse (encodeFrame Config.params c))
  | parse : decode r.word = .ok .parse →
      Serves d r d (parseResponse Config.params .done (frameOfBus r.frameIn))
  | reset : decode r.word = .ok .reset → Serves d r Decoder.init (bareResponse .done)
  | feed (lv : Level) (x : Duration) {d' : Decoder} {rsp : Response} : decode r.word = .ok (.feed lv x) →
      FeedEffect d lv x d' rsp → Serves d r d' rsp

/-- Accepting a request and leaving the decoder at `d'` with the response `rsp`. -/
def State.served (r : Request) (rest : List Request) (d' : Decoder) (rsp : Response) : State where
  dec := d'
  response := some rsp
  waiting := rest
  frameIn := r.frameIn

section Served
variable (r : Request) (rest : List Request) (d' : Decoder) (rsp : Response)

@[simp] theorem served_dec : (State.served r rest d' rsp).dec = d' := rfl
@[simp] theorem served_response : (State.served r rest d' rsp).response = some rsp := rfl
@[simp] theorem served_waiting : (State.served r rest d' rsp).waiting = rest := rfl

end Served

section Step
variable {s t : State} {r : Request} {rest : List Request}

theorem step_of_decode {i : Instr} (hw : s.waiting = r :: rest) (hd : decode r.word = .ok i) :
    step s = exec i (s.accept r rest) := by
  rw [step, hw]
  simp only [hd]

theorem step_of_reject {op : Op} (hw : s.waiting = r :: rest) (hd : decode r.word = .error (.reservedBits op)) :
    step s = .next ((s.accept r rest).respond (bareResponse (.illegalRequest op))) := by
  rw [step, hw]
  simp only [hd]
  rfl

theorem step_of_serves {d' : Decoder} {rsp : Response} (hw : s.waiting = r :: rest)
    (h : Serves s.dec r d' rsp) : step s = .next (State.served r rest d' rsp) := by
  cases h with
  | illegal op hd => exact step_of_reject hw hd
  | encode c hd => exact step_of_decode hw hd
  | parse hd => exact step_of_decode hw hd
  | reset hd => exact step_of_decode hw hd
  | feed lv x hd he => exact (step_of_decode hw hd).trans (feed_of_effect (s := s.accept r rest) he)

theorem serves_of_step (hw : s.waiting = r :: rest) (h : step s = .next t) :
    ∃ d' rsp, Serves s.dec r d' rsp ∧ t = State.served r rest d' rsp := by
  obtain ⟨hnil, -⟩ | ⟨r', rest', hw', hcases⟩ := step_next h
  · simp [hw] at hnil
  · obtain ⟨rfl, rfl⟩ := List.cons.inj (hw.symm.trans hw')
    obtain ⟨i, hd, he⟩ | ⟨op, hd, rfl⟩ := hcases
    · obtain ⟨c, rfl, rfl⟩ | ⟨rfl, rfl⟩ | ⟨rfl, rfl⟩ | ⟨lv, x, d', rsp, rfl, hf, rfl⟩ := exec_next he
      · exact ⟨_, _, .encode c hd, rfl⟩
      · exact ⟨_, _, .parse hd, rfl⟩
      · exact ⟨_, _, .reset hd, rfl⟩
      · exact ⟨_, _, .feed lv x hd hf, rfl⟩
    · exact ⟨_, _, .illegal op hd, rfl⟩

end Step

end Sys2Proof.Machine
end

section
/-! SUPPORT. The invariant of the decoder record (10_state.md R31): INIT meets it, and every event keeps it. -/

namespace Sys2Proof.Machine

theorem inv_init_setStage (st : Stage) : (Decoder.init.setStage st).Inv where
  outside _ := rfl
  accBound := by simp [Decoder.init]
  indexBound := by simp [Decoder.init]
  checkEven := by simp [Decoder.init]
  written := by simp [Decoder.init]
  paired := by simp [Decoder.init]

theorem inv_init : Decoder.init.Inv := inv_init_setStage .idle

/-- In DataMode the carrier is free: no item of the invariant speaks of it. -/
theorem inv_setCarrier {d : Decoder} (h : d.Inv) (hs : d.stage = .dataMode) (c : Bool) :
    (d.setCarrier c).Inv where
  outside hne := absurd hs hne
  accBound := h.accBound
  indexBound := h.indexBound
  checkEven := h.checkEven
  written := h.written
  paired := h.paired

/-- Outside DataMode the invariant fixes the whole record, so an advance leads from INIT to INIT but for the
stage. -/
theorem advances_from_init {d : Decoder} {st : Stage} (h : d.Inv) (ha : Advances d.stage st) :
    d.setStage st = Decoder.init.setStage st := by
  have hne : d.stage ≠ .dataMode := by
    intro hs
    rw [hs] at ha
    cases ha
  rw [h.outside hne]
  rfl

theorem toNat_nbits_succ {d : Decoder} (h : d.nbits.toNat < 7) : (d.nbits + 1).toNat = d.nbits.toNat + 1 := by
  rw [BitVec.toNat_add]
  simp
  omega

theorem toNat_byteIndex_succ {d : Decoder} (h : d.byteIndex.toNat < 53) :
    (d.byteIndex + 1).toNat = d.byteIndex.toNat + 1 := by
  rw [BitVec.toNat_add]
  simp
  omega

theorem accWith_lt {d : Decoder} (b : Bool) (h : d.acc.toNat < 2 ^ d.nbits.toNat) :
    (d.accWith b).toNat < 2 ^ (d.nbits.toNat + 1) := by
  have hacc : d.acc.toNat < 2 ^ (d.nbits.toNat + 1) := h.trans (Nat.pow_lt_pow_right (by decide) (by omega))
  have hbit : b.toNat <<< d.nbits.toNat < 2 ^ (d.nbits.toNat + 1) := by
    rw [Nat.shiftLeft_eq, pow_succ, mul_comm]
    exact Nat.mul_lt_mul_of_pos_left (Nat.lt_succ_of_le b.toNat_le) (Nat.two_pow_pos _)
  rw [Decoder.accWith, BitVec.toNat_or]
  refine Nat.or_lt_two_pow hacc (lt_of_le_of_lt ?_ hbit)
  rw [BitVec.toNat_shiftLeft]
  refine (Nat.mod_le _ _).trans (le_of_eq ?_)
  cases b <;> simp

theorem inv_pushBit {d : Decoder} (h : d.Inv) (hs : d.stage = .dataMode) (hn : d.nbits.toNat < 7) (b : Bool) :
    (d.pushBit b).Inv where
  outside hne := absurd hs hne
  accBound := by
    rw [pushBit_acc, pushBit_nbits, toNat_nbits_succ hn]
    exact accWith_lt b h.accBound
  indexBound := h.indexBound
  checkEven := h.checkEven
  written := h.written
  paired := h.paired

/-- The `check` a stored byte leaves is again the parity of the next position (R31 (e)). -/
theorem stores_check_iff {d : Decoder} {v : Byte} {c : Bool} (h : d.Inv) (hst : Stores d v c) :
    c = true ↔ 3 ≤ d.byteIndex.toNat + 1 ∧ (d.byteIndex.toNat + 1) % 2 = 0 := by
  have hck := h.checkEven
  obtain ⟨h3, rfl⟩ | ⟨h3, hk, rfl⟩ | ⟨h3, hk, rfl, -⟩ := hst
  · rw [hck]
    omega
  · simp only [hk, Bool.false_eq_true, false_iff] at hck
    simp only [true_iff]
    omega
  · simp only [hk, true_iff] at hck
    simp only [Bool.false_eq_true, false_iff]
    omega

/-- A byte stored at an even position above 3 is a check byte that passed (R31 (f)). -/
theorem stores_complement {d : Decoder} {v : Byte} {c : Bool} (h : d.Inv) (hst : Stores d v c)
    (h4 : 4 ≤ d.byteIndex.toNat) (heven : d.byteIndex.toNat % 2 = 0) :
    ∃ dv, readCell d.buf (d.byteIndex.toNat - 1) = some dv ∧ v = dv ^^^ 0xFF := by
  have hcheck : d.check = true := h.checkEven.2 ⟨by omega, heven⟩
  obtain ⟨h3, -⟩ | ⟨-, hk, -⟩ | ⟨-, -, -, -, hdv⟩ := hst
  · omega
  · simp [hcheck] at hk
  · exact hdv

/-- Position 52 is even, so a byte stored with PENDING stands below it (R31 (d)). -/
theorem stores_lt {d : Decoder} {v : Byte} {c : Bool} (h : d.Inv) (hst : Stores d v c) :
    d.byteIndex.toNat < 52 := by
  have hle := h.indexBound
  have hck := h.checkEven
  obtain ⟨h3, -⟩ | ⟨-, hk, -⟩ | ⟨-, -, -, h52, -⟩ := hst
  · omega
  · simp only [hk, Bool.false_eq_true, false_iff] at hck
    omega
  · have : d.byteIndex.toNat ≠ 52 := fun e => h52 (BitVec.eq_of_toNat_eq e)
    omega

theorem inv_storeByte {d : Decoder} {v : Byte} {c : Bool} (h : d.Inv) (hs : d.stage = .dataMode)
    (hst : Stores d v c) : (d.clearBits.storeByte v c).Inv := by
  have hlt := stores_lt h hst
  have hk := toNat_byteIndex_succ (d := d) (by omega)
  constructor
  case outside => exact fun hne => absurd hs hne
  case accBound => simp
  case indexBound =>
    rw [storeByte_byteIndex, clearBits_byteIndex, hk]
    omega
  case checkEven =>
    rw [storeByte_check, storeByte_byteIndex, clearBits_byteIndex, hk]
    exact stores_check_iff h hst
  case written =>
    intro k
    have hw := h.written k
    simp only [Fin.getElem_fin] at hw
    simp only [storeByte_byteIndex, storeByte_buf, clearBits_byteIndex, clearBits_buf, hk, Fin.getElem_fin,
      Vector.getElem_setIfInBounds]
    by_cases hkk : d.byteIndex.toNat = k.val
    · simp [hkk]
    · rw [if_neg hkk, hw]
      omega
  case paired =>
    intro k h4 hlt' heven
    have hp := h.paired k h4
    rw [storeByte_byteIndex, clearBits_byteIndex, hk] at hlt'
    simp only [Fin.getElem_fin] at hp
    simp only [storeByte_buf, clearBits_byteIndex, clearBits_buf, Fin.getElem_fin, Vector.getElem_setIfInBounds]
    rw [readCell_set _ _ _ _ (by omega), if_neg (show k.val - 1 ≠ d.byteIndex.toNat by omega)]
    by_cases hkk : d.byteIndex.toNat = k.val
    · obtain ⟨dv, hr, rfl⟩ := stores_complement h hst (by omega) (by omega)
      rw [hkk] at hr
      simp [hkk, hr]
    · rw [if_neg hkk]
      exact hp (by omega) heven

/-- Stores reads the fields that `setCarrier` leaves alone. -/
theorem stores_setCarrier {d : Decoder} {v : Byte} {c : Bool} (c' : Bool) (h : Stores d v c) :
    Stores (d.setCarrier c') v c := h

theorem inv_of_effect {d d' : Decoder} {lv : Level} {x : Duration} {rsp : Response} (hi : d.Inv)
    (h : FeedEffect d lv x d' rsp) : d'.Inv := by
  cases h with
  | ignored => exact hi
  | advanced st ha =>
    rw [advances_from_init hi ha]
    exact inv_init_setStage st
  | marked hs => exact inv_setCarrier hi hs false
  | violated => exact inv_init
  | bit b hs _ _ _ hn => exact inv_pushBit (inv_setCarrier hi hs true) hs hn b
  | byte b v c hv _ _ _ hst =>
    exact inv_storeByte (inv_setCarrier hi hv.stage true) hv.stage (stores_setCarrier true hst)
  | mismatch => exact inv_init
  | complete => exact inv_init

theorem inv_of_serves {d d' : Decoder} {r : Request} {rsp : Response} (hi : d.Inv) (h : Serves d r d' rsp) :
    d'.Inv := by
  cases h with
  | illegal => exact hi
  | encode => exact hi
  | parse => exact hi
  | reset => exact inv_init
  | feed lv x _ he => exact inv_of_effect hi he

theorem stage_code_le (st : Stage) : st.code.toNat ≤ 4 := by cases st <;> decide

/-- Settles O17: only a served FEED or RESET writes the decoder, and each of FEED's effects keeps the
invariant. -/
theorem everyStepKeepsTheInvariant : Obligations.EveryStepKeepsTheInvariant := by
  intro s t hi hstep
  refine ⟨?_, stage_code_le _⟩
  cases hw : s.waiting with
  | nil =>
    rw [step, hw] at hstep
    obtain rfl := Host.Outcome.next.inj hstep
    exact hi
  | cons r rest =>
    obtain ⟨d', rsp, hserves, rfl⟩ := serves_of_step hw hstep
    exact inv_of_serves hi hserves

/-- Settles O16: the decoder at power-on is INIT. -/
theorem powerOnStateMeetsTheInvariant : Obligations.PowerOnStateMeetsTheInvariant := inv_init

end Sys2Proof.Machine
end

section
/-! SUPPORT. From every state of the invariant FEED, and so every request, has an answer (41_decoder.md R140,
60_exceptions.md R230). -/

namespace Sys2Proof.Machine

theorem readCell_of_written {d : Decoder} (h : d.Inv) {k : Nat} (hk : k < d.byteIndex.toNat) :
    ∃ v, readCell d.buf k = some v := by
  have hle := h.indexBound
  rw [readCell_eq _ _ (by omega)]
  exact Option.isSome_iff_exists.1 ((h.written ⟨k, by omega⟩).2 hk)

/-- The check byte of position 52 fills the last cell, and the frame can be read. -/
theorem frameOfCells_last {d : Decoder} (h : d.Inv) (h52 : d.byteIndex = 52) (v : Byte) :
    ∃ f, frameOfCells (d.buf.setIfInBounds 52 (some v)) = some f := by
  have hall : ∀ k : Fin 53, ((d.buf.setIfInBounds 52 (some v))[k]).isSome = true := by
    intro k
    have hw := h.written k
    rw [h52] at hw
    simp only [Fin.getElem_fin] at hw
    rw [Fin.getElem_fin, Vector.getElem_setIfInBounds]
    by_cases hk : 52 = k.val
    · simp [hk]
    · rw [if_neg hk, hw]
      simp
      omega
  exact ⟨_, dif_pos hall⟩

section Totality
variable {d : Decoder} {lv : Level} {x : Duration}

theorem completed_byte_has_effect (hi : d.Inv) {b : Bool} {v : Byte} (hv : d.Completes b v)
    (hb : isBit b x = true) : ∃ d' rsp, FeedEffect d .H x d' rsp := by
  have hle := hi.indexBound
  by_cases h3 : d.byteIndex.toNat < 3
  · exact ⟨_, _, .byte b v d.check hv rfl hb (by omega) (.inl ⟨h3, rfl⟩)⟩
  cases hk : d.check with
  | false => exact ⟨_, _, .byte b v true hv rfl hb (by omega) (.inr (.inl ⟨by omega, hk, rfl⟩))⟩
  | true =>
    obtain ⟨dv, hr⟩ := readCell_of_written hi (k := d.byteIndex.toNat - 1) (by omega)
    by_cases he : v = dv ^^^ 0xFF
    · by_cases h52 : d.byteIndex = 52
      · obtain ⟨f, hf⟩ := frameOfCells_last hi h52 v
        rw [h52] at hr
        exact ⟨_, _, .complete b v dv f hv rfl hb h52 hk hr he hf⟩
      · exact ⟨_, _, .byte b v false hv rfl hb (by omega)
          (.inr (.inr ⟨by omega, hk, rfl, h52, dv, hr, he⟩))⟩
    · exact ⟨_, _, .mismatch b v dv hv rfl hb (by omega) (by omega) hk hr he⟩

theorem space_has_effect (hi : d.Inv) (hs : d.stage = .dataMode) (hc : d.carrier = false) {b : Bool}
    (hb : isBit b x = true) : ∃ d' rsp, FeedEffect d .H x d' rsp := by
  by_cases hn : d.nbits.toNat < 7
  · exact ⟨_, _, .bit b hs hc rfl hb hn⟩
  · exact completed_byte_has_effect hi (completes_of hs hc hn) hb

/-- An event that fits the window expected has an effect: the preamble advances, a mark clears the carrier, a
space is a bit. -/
theorem fitting_event_has_effect (hi : d.Inv) (hf : d.expects.fits lv x = true) :
    ∃ d' rsp, FeedEffect d lv x d' rsp := by
  cases hs : d.stage with
  | idle => exact ⟨_, _, .advanced .leaderMark (by rw [hs]; exact .leaderMark) hf⟩
  | leaderMark => exact ⟨_, _, .advanced .leaderSpace (by rw [hs]; exact .leaderSpace) hf⟩
  | leaderSpace => exact ⟨_, _, .advanced .syncBit (by rw [hs]; exact .headerMark) hf⟩
  | syncBit => exact ⟨_, _, .advanced .dataMode (by rw [hs]; exact .headerSpace) hf⟩
  | dataMode =>
    cases hc : d.carrier with
    | true => exact ⟨_, _, .marked hs hc hf⟩
    | false =>
      simp only [Decoder.expects, hs, hc] at hf
      obtain ⟨rfl, b, hb⟩ := fits_bitSpace_iff.1 hf
      exact space_has_effect hi hs hc hb

theorem feed_has_effect (hi : d.Inv) (lv : Level) (x : Duration) : ∃ d' rsp, FeedEffect d lv x d' rsp := by
  by_cases ht : d.Takes lv x
  · obtain ⟨hs, hl⟩ | hf := ht
    · exact ⟨_, _, .ignored hs hl⟩
    · exact fitting_event_has_effect hi hf
  · exact ⟨_, _, .violated ht⟩

theorem serves_exists (hi : d.Inv) (r : Request) : ∃ d' rsp, Serves d r d' rsp := by
  cases hd : decode r.word with
  | error e =>
    cases e with
    | reservedBits op => exact ⟨_, _, .illegal op hd⟩
  | ok i =>
    cases i with
    | encode c => exact ⟨_, _, .encode c hd⟩
    | parse => exact ⟨_, _, .parse hd⟩
    | reset => exact ⟨_, _, .reset hd⟩
    | feed lv x =>
      obtain ⟨d', rsp, he⟩ := feed_has_effect hi lv x
      exact ⟨_, _, .feed lv x hd he⟩

end Totality

end Sys2Proof.Machine
end

section
/-! SUPPORT. The kind of each response, and what it drives (30_encoding.md R86, R87). -/

namespace Sys2Proof.Machine

theorem kind_parseResponse (p : Params) (r : Reply) (f : Frame) : (parseResponse p r f).kind = r.kind :=
  kind_commandResponse _ _ _ _

section Kinds
variable {d d' : Decoder} {lv : Level} {x : Duration} {rsp : Response} {r : Request}

/-- The four responses FEED gives. -/
theorem response_of_effect (h : FeedEffect d lv x d' rsp) :
    rsp = bareResponse .pending ∨ (∃ f, rsp = parseResponse Config.params .frameComplete f) ∨
    (∃ st lv w x, rsp = bareResponse (.toleranceViolation st lv w x)) ∨
    ∃ k dv v, rsp = bareResponse (.redundancyMismatch k dv v) := by
  cases h with
  | complete b v dv f => exact .inr (.inl ⟨f, rfl⟩)
  | violated => exact .inr (.inr (.inl ⟨_, _, _, _, rfl⟩))
  | mismatch => exact .inr (.inr (.inr ⟨_, _, _, rfl⟩))
  | _ => exact .inl rfl

theorem kind_of_effect (h : FeedEffect d lv x d' rsp) :
    rsp.kind = 1 ∨ rsp.kind = 2 ∨ rsp.kind = 3 ∨ rsp.kind = 4 := by
  obtain rfl | ⟨f, rfl⟩ | ⟨_, _, _, _, rfl⟩ | ⟨_, _, _, rfl⟩ := response_of_effect h
  · exact .inl (kind_bareResponse _)
  · exact .inr (.inl (kind_parseResponse _ _ _))
  · exact .inr (.inr (.inl (kind_bareResponse _)))
  · exact .inr (.inr (.inr (kind_bareResponse _)))

theorem legal_bareResponse {r : Reply} (h : r ≠ .frameComplete) : (bareResponse r).Legal :=
  .inr (.inr ⟨r, h, rfl⟩)

theorem legal_parseResponse (p : Params) {r : Reply} (h : r = .done ∨ r = .frameComplete) (f : Frame) :
    (parseResponse p r f).Legal :=
  .inr (.inl ⟨r, _, _, _, h, rfl⟩)

theorem legal_of_effect (h : FeedEffect d lv x d' rsp) : rsp.Legal := by
  obtain rfl | ⟨f, rfl⟩ | ⟨_, _, _, _, rfl⟩ | ⟨_, _, _, rfl⟩ := response_of_effect h
  · exact legal_bareResponse nofun
  · exact legal_parseResponse _ (.inr rfl) f
  · exact legal_bareResponse nofun
  · exact legal_bareResponse nofun

theorem legal_of_serves (h : Serves d r d' rsp) : rsp.Legal := by
  cases h with
  | illegal op => exact legal_bareResponse nofun
  | encode c => exact .inl ⟨_, rfl⟩
  | parse => exact legal_parseResponse _ (.inl rfl) _
  | reset => exact legal_bareResponse nofun
  | feed _ _ _ he => exact legal_of_effect he

end Kinds

/-- Settles O43: every event has an effect from the invariant, and an effect is a decoder and a response of kind
1 to 4. -/
theorem feedAnswersFromEveryInvariantState : Obligations.FeedAnswersFromEveryInvariantState := by
  intro s lv x hi
  obtain ⟨d', rsp, he⟩ := feed_has_effect hi lv x
  exact ⟨d', rsp, feed_of_effect he, kind_of_effect he⟩

/-- Settles O11: every request can be served from the invariant, and is answered with a legal response. -/
theorem everyRequestEndsWithOneResponse : Obligations.EveryRequestEndsWithOneResponse := by
  intro s r rest hi hw
  obtain ⟨d', rsp, hs⟩ := serves_exists hi r
  exact ⟨_, rsp, step_of_serves hw hs, rfl, rfl, legal_of_serves hs⟩

theorem noBus_bareResponse (r : Reply) : (bareResponse r).NoBus := ⟨rfl, rfl, rfl, rfl⟩

theorem detail_zero_of_word {rsp : Response} {r : Reply} (hw : rsp.word = r.word)
    (hr : r = .done ∨ r = .pending ∨ r = .frameComplete) : rsp.word.extractLsb' 3 61 = 0 := by
  rw [hw]
  rcases hr with rfl | rfl | rfl <;> decide

theorem kind_of_serves {d d' : Decoder} {r : Request} {rsp : Response} (h : Serves d r d' rsp) :
    rsp.kind = 0 ∨ rsp.kind = 1 ∨ rsp.kind = 2 ∨ rsp.kind = 3 ∨ rsp.kind = 4 ∨ rsp.kind = 7 := by
  cases h with
  | illegal op => simp [kind_bareResponse, Reply.kind]
  | encode c => simp [kind_frameResponse]
  | parse => simp [kind_parseResponse, Reply.kind]
  | reset => simp [kind_bareResponse, Reply.kind]
  | feed _ _ _ he =>
    rcases kind_of_effect he with h | h | h | h <;> simp [h]

/-- Settles O13: a request is answered with one of seven responses, and each drives what its kind says. -/
theorem kindDeterminesTheBusesDriven : Obligations.KindDeterminesTheBusesDriven := by
  intro s t r rest rsp hw hstep hrsp
  obtain ⟨d', rsp', hs, rfl⟩ := serves_of_step hw hstep
  obtain rfl := Option.some.inj hrsp
  refine ⟨kind_of_serves hs, ?_⟩
  cases hs with
  | illegal op => simp [kind_bareResponse, Reply.kind, noBus_bareResponse]
  | encode c hd =>
    have hk := kind_frameResponse (encodeFrame Config.params c)
    refine ⟨by simp [hk], by simp [hk], fun _ => .inl ⟨c, hd, rfl, rfl, rfl, rfl⟩,
      fun _ => detail_zero_of_word (r := .done) rfl (by simp)⟩
  | parse hd =>
    have hk := kind_parseResponse Config.params .done (frameOfBus r.frameIn)
    refine ⟨by simp [hk, Reply.kind], by simp [hk, Reply.kind], fun _ => .inr (.inl ⟨hd, rfl, rfl, rfl, rfl⟩),
      fun _ => detail_zero_of_word (r := .done) rfl (by simp)⟩
  | reset hd =>
    have hk := kind_bareResponse .done
    refine ⟨by simp [hk, Reply.kind], by simp [hk, Reply.kind],
      fun _ => .inr (.inr ⟨hd, noBus_bareResponse _⟩), fun _ => detail_zero_of_word (r := .done) rfl (by simp)⟩
  | feed lv x hd he =>
    obtain rfl | ⟨f, rfl⟩ | ⟨_, _, _, _, rfl⟩ | ⟨_, _, _, rfl⟩ := response_of_effect he
    · have hk := kind_bareResponse .pending
      exact ⟨fun _ => noBus_bareResponse _, by simp [hk, Reply.kind], by simp [hk, Reply.kind],
        fun _ => detail_zero_of_word (r := .pending) rfl (by simp)⟩
    · have hk := kind_parseResponse Config.params .frameComplete f
      exact ⟨by simp [hk, Reply.kind], fun _ => ⟨rfl, rfl, rfl, rfl⟩, by simp [hk, Reply.kind],
        fun _ => detail_zero_of_word (r := .frameComplete) rfl (by simp)⟩
    · simp [kind_bareResponse, Reply.kind, noBus_bareResponse]
    · simp [kind_bareResponse, Reply.kind, noBus_bareResponse]

end Sys2Proof.Machine
end

section
/-! SUPPORT. One event in one state: the windows, the events a decoder takes, and what each cause of an effect
leaves (41_decoder.md). -/

namespace Sys2Proof.Machine

section Windows
variable {lv : Level} {x : Duration}

theorem fits_leaderMark_iff :
    WindowId.leaderMark.fits lv x = true ↔ lv = .L ∧ 28000 ≤ x.toNat ∧ x.toNat ≤ 31000 := by
  simp [WindowId.fits, WindowId.level, WindowId.holds, inLeaderMark, inW_iff]

theorem fits_leaderSpace_iff :
    WindowId.leaderSpace.fits lv x = true ↔ lv = .H ∧ 48000 ≤ x.toNat ∧ x.toNat ≤ 51000 := by
  simp [WindowId.fits, WindowId.level, WindowId.holds, inLeaderSpace, inW_iff]

theorem fits_headerMark_iff :
    WindowId.headerMark.fits lv x = true ↔ lv = .L ∧ 3300 ≤ x.toNat ∧ x.toNat ≤ 3500 := by
  simp [WindowId.fits, WindowId.level, WindowId.holds, inHeaderMark, inW_iff]

theorem fits_headerSpace_iff :
    WindowId.headerSpace.fits lv x = true ↔ lv = .H ∧ 1600 ≤ x.toNat ∧ x.toNat ≤ 1700 := by
  simp [WindowId.fits, WindowId.level, WindowId.holds, inHeaderSpace, inW_iff]

theorem fits_bitMark_iff :
    WindowId.bitMark.fits lv x = true ↔ lv = .L ∧ 400 ≤ x.toNat ∧ x.toNat ≤ 470 := by
  simp [WindowId.fits, WindowId.level, WindowId.holds, inBitMark, inW_iff]

theorem isBit_false_iff : isBit false x = true ↔ 390 ≤ x.toNat ∧ x.toNat ≤ 450 := by
  simp [isBit, inBitZero, inW_iff]

theorem isBit_true_iff : isBit true x = true ↔ 1230 ≤ x.toNat ∧ x.toNat ≤ 1290 := by
  simp [isBit, inBitOne, inW_iff]

theorem fits_bitSpace_iff_ranges : WindowId.bitSpace.fits lv x = true ↔
    lv = .H ∧ ((390 ≤ x.toNat ∧ x.toNat ≤ 450) ∨ (1230 ≤ x.toNat ∧ x.toNat ≤ 1290)) := by
  rw [fits_bitSpace_iff, Bool.exists_bool, isBit_false_iff, isBit_true_iff]

end Windows

/-- Settles O29: each window is its level and a closed interval of durations. -/
theorem windowsAreClosedIntervals : Obligations.WindowsAreClosedIntervals := fun _ _ =>
  ⟨fits_leaderMark_iff, fits_leaderSpace_iff, fits_headerMark_iff, fits_headerSpace_iff, fits_bitMark_iff,
    fits_bitSpace_iff_ranges, isBit_false_iff, isBit_true_iff⟩

section Takes
variable {d d' : Decoder} {lv : Level} {x : Duration} {rsp : Response}

theorem expects_of_space (hs : d.stage = .dataMode) (hc : d.carrier = false) : d.expects = .bitSpace := by
  simp [Decoder.expects, hs, hc]

theorem expects_of_mark (hs : d.stage = .dataMode) (hc : d.carrier = true) : d.expects = .bitMark := by
  simp [Decoder.expects, hs, hc]

theorem takes_of_isBit {b : Bool} (hs : d.stage = .dataMode) (hc : d.carrier = false) (hb : isBit b x = true) :
    d.Takes .H x := by
  rw [Decoder.Takes, expects_of_space hs hc]
  exact .inr (isBit_fits hb)

/-- An effect is a violation, or the event was taken and is answered otherwise. -/
theorem effect_violated_or_taken (h : FeedEffect d lv x d' rsp) :
    (¬ d.Takes lv x ∧ rsp = bareResponse (.toleranceViolation d.stage lv d.expects x)) ∨
      (d.Takes lv x ∧ rsp.kind ≠ 3) := by
  cases h with
  | violated hn => exact .inl ⟨hn, rfl⟩
  | ignored hs hl => exact .inr ⟨.inl ⟨hs, hl⟩, by simp [kind_bareResponse, Reply.kind]⟩
  | advanced st ha hf => exact .inr ⟨.inr hf, by simp [kind_bareResponse, Reply.kind]⟩
  | marked hs hc hf => exact .inr ⟨.inr hf, by simp [kind_bareResponse, Reply.kind]⟩
  | bit b hs hc hl hb =>
    subst hl
    exact .inr ⟨takes_of_isBit hs hc hb, by simp [kind_bareResponse, Reply.kind]⟩
  | byte b v c hv hl hb =>
    subst hl
    exact .inr ⟨takes_of_isBit hv.stage hv.carrier hb, by simp [kind_bareResponse, Reply.kind]⟩
  | mismatch b v dv hv hl hb =>
    subst hl
    exact .inr ⟨takes_of_isBit hv.stage hv.carrier hb, by simp [kind_bareResponse, Reply.kind]⟩
  | complete b v dv f hv hl hb =>
    subst hl
    exact .inr ⟨takes_of_isBit hv.stage hv.carrier hb, by simp [kind_parseResponse, Reply.kind]⟩

end Takes

/-- What an event that answered had for its effect, with the response it carries. -/
theorem effect_of_exec {s t : State} {lv : Level} {x : Duration} {rsp : Response}
    (h : exec (.feed lv x) s = .next t) (hrsp : t.response = some rsp) : FeedEffect s.dec lv x t.dec rsp := by
  obtain ⟨d', rsp', he, rfl⟩ := feed_effect h
  obtain rfl := Option.some.inj hrsp
  exact he

/-- Settles O33: a misfit is a violation by `violate_of_not_takes`, and no other effect has kind 3. -/
theorem toleranceViolationExactlyOnAMisfit : Obligations.ToleranceViolationExactlyOnAMisfit := by
  intro s lv x
  refine ⟨fun hn => ?_, fun ht t rsp hexec hrsp => ?_⟩
  · rw [violate_of_not_takes hn, violate_eq]
  · obtain ⟨hn, -⟩ | ⟨-, hk⟩ := effect_violated_or_taken (effect_of_exec hexec hrsp)
    · exact absurd ht hn
    · exact hk

/-- Settles O34: the only effect of an event that is not taken is a violation, of kind 3. -/
theorem pendingOnlyWhenTheEventIsTaken : Obligations.PendingOnlyWhenTheEventIsTaken := by
  intro s t lv x rsp hexec hrsp hk
  obtain ⟨-, rfl⟩ | ⟨ht, -⟩ := effect_violated_or_taken (effect_of_exec hexec hrsp)
  · simp [kind_bareResponse, Reply.kind] at hk
  · exact ht

/-- Settles O44: an effect is a relation of the decoder record, the event and nothing else. -/
theorem feedDependsOnDecoderAndEventAlone : Obligations.FeedDependsOnDecoderAndEventAlone := by
  intro s s' t lv x hdec hexec
  obtain ⟨d', rsp, he, rfl⟩ := feed_effect hexec
  rw [hdec] at he
  exact feed_of_effect he

/-- Settles O30: in Idle a high level has the effect `ignored`. -/
theorem idleIgnoresHighLevels : Obligations.IdleIgnoresHighLevels :=
  fun _ _ hs => feed_of_effect (.ignored hs rfl)

section Advance
variable {s : State} {lv : Level} {x : Duration}

/-- An event in the window of its preamble stage writes the stage alone. -/
theorem feed_advances {st : Stage} (w : WindowId) (ha : Advances s.dec.stage st) (hw : s.dec.expects = w)
    (hf : w.fits lv x = true) : exec (.feed lv x) s =
      .next { s with dec := { s.dec with stage := st }, response := some (bareResponse .pending) } :=
  feed_of_effect (.advanced st ha (hw ▸ hf))

theorem feed_marks (hs : s.dec.stage = .dataMode) (hc : s.dec.carrier = true)
    (hf : WindowId.bitMark.fits lv x = true) : exec (.feed lv x) s =
      .next { s with dec := { s.dec with carrier := false }, response := some (bareResponse .pending) } :=
  feed_of_effect (.marked hs hc (expects_of_mark hs hc ▸ hf))

end Advance

/-- Settles O31: in stages 0 to 3 the event expected has the effect `advanced`. -/
theorem preambleEventsAdvanceTheStage : Obligations.PreambleEventsAdvanceTheStage := by
  intro s x
  refine ⟨fun hs hlo hhi => ?_, fun hs hlo hhi => ?_, fun hs hlo hhi => ?_, fun hs hlo hhi => ?_⟩
  · exact feed_advances .leaderMark (hs ▸ .leaderMark) (by simp [Decoder.expects, hs])
      (fits_leaderMark_iff.2 ⟨rfl, hlo, hhi⟩)
  · exact feed_advances .leaderSpace (hs ▸ .leaderSpace) (by simp [Decoder.expects, hs])
      (fits_leaderSpace_iff.2 ⟨rfl, hlo, hhi⟩)
  · exact feed_advances .headerMark (hs ▸ .headerMark) (by simp [Decoder.expects, hs])
      (fits_headerMark_iff.2 ⟨rfl, hlo, hhi⟩)
  · exact feed_advances .headerSpace (hs ▸ .headerSpace) (by simp [Decoder.expects, hs])
      (fits_headerSpace_iff.2 ⟨rfl, hlo, hhi⟩)

/-- Settles O35: the mark of a bit has the effect `marked`. -/
theorem bitMarkClearsCarrier : Obligations.BitMarkClearsCarrier :=
  fun _ _ hs hc hlo hhi => feed_marks hs hc (fits_bitMark_iff.2 ⟨rfl, hlo, hhi⟩)

/-- Settles O32: the decoder that enters DataMode is INIT but for the stage. -/
theorem dataModeBeginsFromInitFields : Obligations.DataModeBeginsFromInitFields := by
  intro s t lv x hi hs hexec hdata
  obtain ⟨d', rsp, he, rfl⟩ := feed_effect hexec
  simp only [respond_dec, withDec_dec] at hdata ⊢
  cases he with
  | ignored hidle => simp [hs] at hidle
  | advanced st ha =>
    rw [advances_from_init hi ha]
    simp [Decoder.init]
  | marked hm => simp [hs] at hm
  | violated => simp [Decoder.init] at hdata
  | bit b hm => simp [hs] at hm
  | byte b v c hv => simp [hv.stage] at hs
  | mismatch => simp [Decoder.init] at hdata
  | complete => simp [Decoder.init] at hdata

theorem accWith_bit (d : Decoder) (b : Bool) {j : Nat} (hj : j < 8) :
    (d.accWith b).getLsbD j = (d.acc.getLsbD j || (decide (j = d.nbits.toNat) && b)) := by
  rw [Decoder.accWith, BitVec.getLsbD_or, BitVec.getLsbD_shiftLeft, BitVec.getLsbD_setWidth,
    BitVec.getLsbD_ofBool]
  congr 1
  by_cases h : j = d.nbits.toNat
  · have h8 : d.nbits.toNat < 8 := h ▸ hj
    simp [h, h8]
  · have hpos : j < d.nbits.toNat ∨ j - d.nbits.toNat ≠ 0 := by omega
    rcases hpos with h' | h' <;> simp [h, h']

/-- Settles O36: a space below the eighth bit has the effect `bit`. -/
theorem bitSpaceAccumulatesLsbFirst : Obligations.BitSpaceAccumulatesLsbFirst := by
  intro s x b hs hc hn hb
  exact ⟨s.dec.accWith b, fun j => accWith_bit s.dec b j.isLt, feed_of_effect (.bit b hs hc rfl hb hn)⟩

/-- Settles O39: a check byte that fails has the effect `mismatch`. -/
theorem failingCheckByteIsAMismatch : Obligations.FailingCheckByteIsAMismatch := by
  intro s x b v dv hv hb h3 h53 hk hr hne
  have hfails : v ≠ dv ^^^ 0xFF := fun h => hne (h.trans (xor_ff_eq_not dv))
  exact feed_of_effect (.mismatch b v dv hv rfl hb h3 h53 hk hr hfails)

/-- Cells that hold the first 52 bytes of a frame hold the frame once the last byte is stored. -/
theorem frameOfCells_of_cells_below {buf : Vector (Option Byte) 53} {f : Frame}
    (h : ∀ k : Fin 52, readCell buf k = some f[k.val]) :
    frameOfCells (buf.setIfInBounds 52 (some f[52])) = some f := by
  rw [frameOfCells_some]
  intro k
  rw [Fin.getElem_fin, ← readCell_eq _ _ k.isLt, readCell_set _ _ _ _ (by decide)]
  by_cases hk : k.val = 52
  · simp [hk]
  · rw [if_neg hk]
    exact h ⟨k, by omega⟩

theorem readCell_of_frameOfCells {buf : Vector (Option Byte) 53} {v : Byte} {f : Frame}
    (h : frameOfCells (buf.setIfInBounds 52 (some v)) = some f) :
    f[52] = v ∧ ∀ k : Fin 52, readCell buf k = some f[k.val] := by
  rw [frameOfCells_some] at h
  refine ⟨by simpa using (h 52).symm, fun k => ?_⟩
  have hk := h ⟨k, by omega⟩
  rw [Fin.getElem_fin, ← readCell_eq _ _ (by simp only; omega), readCell_set _ _ _ _ (by decide),
    if_neg (by simp only; omega)] at hk
  exact hk

/-- FRAME_COMPLETE is PARSE's own answer with the kind 2 in its word. -/
theorem parseResponse_frameComplete (p : Params) (f : Frame) :
    parseResponse p .frameComplete f = { parseResponse p .done f with word := 2 } := rfl

/-- What PARSE of a frame on FRAME_IN answers. -/
theorem response_of_exec_parse {s u : State} {f : Frame} {rsp : Response}
    (h : exec .parse { s with frameIn := busOf f } = .next u) (hrsp : u.response = some rsp) :
    rsp = parseResponse Config.params .done f := by
  rw [exec_parse_frameIn, frameOfBus_busOf] at h
  obtain rfl := Host.Outcome.next.inj h
  exact (Option.some.inj hrsp).symm

/-- Settles O40: the passing check byte at position 52 has the effect `complete`. -/
theorem lastCheckByteCompletesTheFrame : Obligations.LastCheckByteCompletesTheFrame := by
  intro s u x b f rsp hv hb h52 hk hcells hlast hexec hrsp
  rw [response_of_exec_parse hexec hrsp, ← parseResponse_frameComplete]
  have hpasses : f[52] = f[51] ^^^ 0xFF := hlast.trans (xor_ff_eq_not _).symm
  exact feed_of_effect
    (.complete b f[52] f[51] f hv rfl hb h52 hk (hcells 51) hpasses (frameOfCells_of_cells_below hcells))

/-- The pairs below `byte_index` stand in the invariant; the pair of the last check byte is the check itself. -/
theorem paired_of_last_check {d : Decoder} (hi : d.Inv) (h52 : d.byteIndex = 52) {f : Frame}
    (hcells : ∀ k : Fin 52, readCell d.buf k = some f[k.val]) (hlast : f[52] = f[51] ^^^ 0xFF) :
    Frame.Paired f := by
  intro i
  by_cases h24 : i.val = 24
  · simpa [h24] using hlast
  · have hp := hi.paired ⟨2 * i + 4, by omega⟩ (by simp) (by rw [h52]; simp; omega) (by simp only; omega)
    have hcheck := hcells ⟨2 * i + 4, by omega⟩
    have hdata := hcells ⟨2 * i + 3, by omega⟩
    rw [Fin.getElem_fin, ← readCell_eq _ _ (by simp only; omega)] at hp
    simp only [show 2 * i.val + 4 - 1 = 2 * i.val + 3 from rfl, hdata, hcheck, Option.map_some] at hp
    exact Option.some.inj hp

/-- Settles O41: kind 2 is the effect `complete` alone. -/
theorem frameCompletesOnlyWithAllChecksPassed : Obligations.FrameCompletesOnlyWithAllChecksPassed := by
  intro s t lv x rsp hi hexec hrsp hk
  have he := effect_of_exec hexec hrsp
  generalize t.dec = d' at he
  cases he with
  | complete b v dv f hv hl hb h52 _ hr hpass hf =>
    obtain ⟨rfl, hcells⟩ := readCell_of_frameOfCells hf
    have hdv : dv = f[51] := Option.some.inj (hr.symm.trans (hcells 51))
    exact ⟨b, f, hl, hb, hv, h52, hcells, paired_of_last_check hi h52 hcells (hdv ▸ hpass), rfl⟩
  | _ => simp [kind_bareResponse, Reply.kind] at hk

/-- Settles O45: a PENDING of DataMode is a mark that fits, or a space that is a bit. -/
theorem acceptedDataModeEventInvertsCarrier : Obligations.AcceptedDataModeEventInvertsCarrier := by
  intro s t lv x rsp hs hexec hrsp hk
  have he := effect_of_exec hexec hrsp
  generalize t.dec = d' at he ⊢
  cases he with
  | ignored hidle => simp [hs] at hidle
  | advanced st ha =>
    rw [hs] at ha
    cases ha
  | marked _ hc hf =>
    rw [expects_of_mark hs hc, fits_bitMark_iff] at hf
    simp [hs, hc, hf.1]
  | bit b _ hc hl => simp [hs, hc, hl]
  | byte b v c hv hl => simp [hs, hv.carrier, hl]
  | violated => simp [kind_bareResponse, Reply.kind] at hk
  | mismatch => simp [kind_bareResponse, Reply.kind] at hk
  | complete => simp [kind_parseResponse, Reply.kind] at hk

theorem not_takes_of_misfit {d : Decoder} {lv : Level} {x : Duration} (w : WindowId) (hw : d.expects = w)
    (hi : d.stage = .idle → lv = .L) (hf : ¬ w.fits lv x = true) : ¬ d.Takes lv x := by
  rintro (⟨hs, hl⟩ | h)
  · simp [hi hs] at hl
  · exact hf (hw ▸ h)

theorem feed_violates {s : State} {lv : Level} {x : Duration} (w : WindowId) (hw : s.dec.expects = w)
    (hi : s.dec.stage = .idle → lv = .L) (hf : ¬ w.fits lv x = true) : exec (.feed lv x) s =
      .next { s with dec := Decoder.init
                     response := some (bareResponse (.toleranceViolation s.dec.stage lv w x)) } := by
  rw [violate_of_not_takes (not_takes_of_misfit w hw hi hf), hw, violate_eq]

/-- Settles O46: the durations of the source on either side of the windows' upper ends. -/
theorem boundaryDurationsAcceptAndReject : Obligations.BoundaryDurationsAcceptAndReject := by
  intro s hs
  have hidle {lv : Level} : s.dec.stage = .idle → lv = .L := by simp [hs]
  refine ⟨fun hc => ⟨fun x hx => ?_, ?_⟩, fun hc => ⟨fun x hx => ?_, ?_⟩⟩
  · refine feed_marks hs hc (fits_bitMark_iff.2 ?_)
    simp only [List.mem_cons, List.not_mem_nil, or_false] at hx
    rcases hx with rfl | rfl <;> decide
  · rw [feed_violates .bitMark (expects_of_mark hs hc) hidle (by decide), hs]
  · have hone : isBit true x = true := by
      simp only [List.mem_cons, List.not_mem_nil, or_false] at hx
      rcases hx with rfl | rfl <;> decide
    rw [execFeed_dataMode_space hs hc, execFeed_dataMode_space hs hc, feedSpace_bit hone,
      feedSpace_bit (b := true) (by decide)]
  · rw [feed_violates .bitSpace (expects_of_space hs hc) hidle (by decide), hs]

end Sys2Proof.Machine
end

section
/-! SUPPORT. The details of an error in its response word (30_encoding.md R88 to R90), and what a violation and
an illegal request report. -/

namespace Sys2Proof.Machine

theorem violation_word_fields (st : Stage) (lv : Level) (w : WindowId) (x : Duration) :
    let rsp := (Reply.toleranceViolation st lv w x).word
    rsp.extractLsb' 0 3 = 3 ∧ rsp.extractLsb' 3 3 = st.code ∧ rsp.extractLsb' 6 1 = lv.bit ∧
      rsp.extractLsb' 7 3 = w.code ∧ rsp.extractLsb' 10 32 = x ∧ rsp.extractLsb' 42 22 = 0 := by
  refine ⟨?_, ?_, ?_, ?_, ?_, ?_⟩ <;> simp only [Reply.word, BitVec.extractLsb'_append_eq_ite] <;> simp

theorem mismatch_word_fields (k : BitVec 6) (dv v : Byte) :
    let rsp := (Reply.redundancyMismatch k dv v).word
    rsp.extractLsb' 0 3 = 4 ∧ rsp.extractLsb' 3 6 = k ∧ rsp.extractLsb' 9 8 = dv ∧ rsp.extractLsb' 17 8 = v ∧
      rsp.extractLsb' 25 39 = 0 := by
  refine ⟨?_, ?_, ?_, ?_, ?_⟩ <;> simp only [Reply.word, BitVec.extractLsb'_append_eq_ite] <;> simp

theorem illegal_word_fields (op : Op) :
    let rsp := (Reply.illegalRequest op).word
    rsp.extractLsb' 0 3 = 7 ∧ rsp.extractLsb' 3 2 = op.code ∧ rsp.extractLsb' 5 59 = 0 := by
  refine ⟨?_, ?_, ?_⟩ <;> simp only [Reply.word, BitVec.extractLsb'_append_eq_ite] <;> simp

/-- Settles O14: the fields of the three words are the codes of `Stage`, `Level`, `WindowId` and `Op`. -/
theorem errorDetailsStandInTheirBits : Obligations.ErrorDetailsStandInTheirBits := by
  refine ⟨fun st lv w x => ?_, mismatch_word_fields, fun op => ?_⟩
  · obtain ⟨hkind, hstage, hlevel, hwindow, hrest⟩ := violation_word_fields st lv w x
    refine ⟨hkind, hstage.trans ?_, hlevel.trans ?_, hwindow.trans ?_, hrest⟩
    · cases st <;> rfl
    · cases lv <;> rfl
    · cases w <;> rfl
  · obtain ⟨hkind, hop, hrest⟩ := illegal_word_fields op
    refine ⟨hkind, hop.trans ?_, hrest⟩
    cases op <;> rfl

/-- What an event that does not fit the window `w` reports: the stage, the level, the window and the duration in
the response word, no bus, and the decoder at INIT. -/
theorem misfit_reports {s : State} {lv : Level} {x : Duration} (w : WindowId) (hw : s.dec.expects = w)
    (hi : s.dec.stage = .idle → lv = .L) (hf : ¬ w.fits lv x = true) : ∃ rsp : Response,
      exec (.feed lv x) s = .next { s with dec := Decoder.init, response := some rsp } ∧
      rsp.word.extractLsb' 0 3 = 3 ∧ rsp.word.extractLsb' 3 3 = s.dec.stage.code ∧
      rsp.word.extractLsb' 6 1 = (if lv = .H then 1 else 0) ∧ rsp.word.extractLsb' 7 3 = w.code ∧
      rsp.word.extractLsb' 10 32 = x ∧ rsp.word.extractLsb' 42 22 = 0 ∧ rsp.NoBus := by
  obtain ⟨hkind, hstage, hlevel, hwindow, hduration, hzero⟩ := violation_word_fields s.dec.stage lv w x
  have hbit : lv.bit = (if lv = .H then 1 else 0) := by cases lv <;> rfl
  exact ⟨_, feed_violates w hw hi hf, hkind, hstage, hlevel.trans hbit, hwindow, hduration, hzero,
    noBus_bareResponse _⟩

/-- An event of the other level, or of a duration outside the window, is not one of the level inside it. -/
theorem not_level_and_inside {lv l l' : Level} {p : Prop} (h : lv = l' ∨ ¬ p) (hne : l' ≠ l) :
    ¬ (lv = l ∧ p) := by
  rintro ⟨rfl, hp⟩
  exact h.elim hne.symm fun hn => hn hp

/-- Settles O58: each row of the table is a misfit of the window its stage and carrier expect. -/
theorem violationsCarryTheNumbersOfTheTable : Obligations.ViolationsCarryTheNumbersOfTheTable := by
  intro s lv x reports
  have row {st : Stage} (w : WindowId) (hs : s.dec.stage = st) (hw : s.dec.expects = w)
      (hi : st = .idle → lv = .L) (hf : ¬ w.fits lv x = true) : reports st.code w.code := by
    subst hs
    exact misfit_reports w hw hi hf
  refine ⟨fun hs hl hx => ?_, fun hs hx => ?_, fun hs hx => ?_, fun hs hx => ?_, fun hs hc hx => ?_,
    fun hs hc hx => ?_⟩
  · exact row .leaderMark hs (by simp [Decoder.expects, hs]) (fun _ => hl)
      (mt fits_leaderMark_iff.1 fun h => hx h.2)
  · exact row .leaderSpace hs (by simp [Decoder.expects, hs]) nofun
      (mt fits_leaderSpace_iff.1 (not_level_and_inside hx nofun))
  · exact row .headerMark hs (by simp [Decoder.expects, hs]) nofun
      (mt fits_headerMark_iff.1 (not_level_and_inside hx nofun))
  · exact row .headerSpace hs (by simp [Decoder.expects, hs]) nofun
      (mt fits_headerSpace_iff.1 (not_level_and_inside hx nofun))
  · exact row .bitMark hs (expects_of_mark hs hc) nofun (mt fits_bitMark_iff.1 (not_level_and_inside hx nofun))
  · exact row .bitSpace hs (expects_of_space hs hc) nofun
      (mt fits_bitSpace_iff_ranges.1 (not_level_and_inside hx nofun))

/-- Settles O8: the next state is `exec` of the instruction after `accept`. -/
theorem stepRunsTheDecodedInstruction : Obligations.StepRunsTheDecodedInstruction :=
  fun _ _ _ _ hw hd => step_of_decode hw hd

/-- Settles O10: the first arm of `step`. -/
theorem stepWithNoRequestHoldsTheState : Obligations.StepWithNoRequestHoldsTheState := by
  intro s hw
  rw [step, hw]

/-- Settles O15: the power-on decoder is INIT, whose cells are a replicated `none`. -/
theorem powerOnStateIsInit : Obligations.PowerOnStateIsInit :=
  ⟨rfl, rfl, rfl, rfl, rfl, rfl, fun k => by simp [State.reset, Decoder.init], rfl⟩

/-- Settles O54: RESET writes INIT, whose fields these are. -/
theorem resetSetsEveryDecoderField : Obligations.ResetSetsEveryDecoderField := fun _ => rfl

end Sys2Proof.Machine
end

section
/-! SUPPORT. Decoding an encoded request word (30_encoding.md R72 to R77, R103). -/

namespace Sys2Proof

theorem encodedWord_statement (i : Instr) : Laws.EncodedWord.Statement i := by
  cases i with
  | encode c => exact Laws.EncodedWord.encode c
  | feed lv d => exact Laws.EncodedWord.feed lv d
  | parse => exact Laws.EncodedWord.parse
  | reset => exact Laws.EncodedWord.reset

theorem encode_command_bits (c : Command) : (encode (.encode c)).extractLsb' 0 48 = c.pack := by
  simp only [encode, BitVec.extractLsb'_append_eq_ite]
  simp

theorem encode_duration_bits (lv : Level) (d : Duration) : (encode (.feed lv d)).extractLsb' 0 32 = d := by
  simp only [encode, BitVec.extractLsb'_append_eq_ite]
  simp

theorem encode_level_bit (lv : Level) (d : Duration) : (encode (.feed lv d)).getLsbD 32 = lv.bit.getLsbD 0 := by
  simp only [encode, BitVec.getLsbD_append]
  rfl

theorem operandsOf_encode (i : Instr) : operandsOf i.op (encode i) = i := by
  cases i with
  | encode c => simp only [Instr.op, operandsOf, encode_command_bits, unpack_pack]
  | feed lv d => simp only [Instr.op, operandsOf, encode_duration_bits, encode_level_bit, ofBit_bit]
  | parse => rfl
  | reset => rfl

theorem decode_encode (i : Instr) : decode (encode i) = .ok i := by
  obtain ⟨-, hmask⟩ := encodedWord_statement i
  rw [decode, opOf_encode, if_pos hmask, operandsOf_encode]

/-- Settles O3: the encoded word passes the mask test of its own operation, and its fields are the operands. -/
theorem decodeOfEncodeIsTheInstruction : Obligations.DecodeOfEncodeIsTheInstruction :=
  fun i _ => decode_encode i

/-! ### Reserved bits -/

/-- Bit `j` of REQ is reserved in the format of an operation (30_encoding.md R77, first list). -/
def Op.reserves : Op → Nat → Bool
  | .encode, j => (decide (48 ≤ j) && decide (j < 62)) || (decide (22 ≤ j) && decide (j < 24))
  | .feed, j => decide (33 ≤ j) && decide (j < 62)
  | .parse, j => decide (j < 62)
  | .reset, j => decide (j < 62)

theorem reserves_lt {op : Op} {j : Nat} (h : op.reserves j = true) : j < 62 := by
  cases op <;> simp [Op.reserves] at h <;> omega

theorem reservedClear_iff (op : Op) (w : BitVec 64) :
    reservedClear op w = true ↔ ∀ j, op.reserves j = true → w.getLsbD j = false := by
  cases op with
  | encode =>
    simp only [reservedClear, Bool.and_eq_true, extract_zero_iff, Op.reserves, Bool.or_eq_true, decide_eq_true_eq]
    constructor
    · rintro ⟨hhigh, hlow⟩ j (⟨h1, h2⟩ | ⟨h1, h2⟩)
      · simpa [Nat.add_sub_cancel' h1] using hhigh (j - 48) (by omega)
      · simpa [Nat.add_sub_cancel' h1] using hlow (j - 22) (by omega)
    · intro h
      exact ⟨fun j hj => h _ (by omega), fun j hj => h _ (by omega)⟩
  | feed =>
    simp only [reservedClear, extract_zero_iff, Op.reserves, Bool.and_eq_true, decide_eq_true_eq]
    constructor
    · rintro h j ⟨h1, h2⟩
      simpa [Nat.add_sub_cancel' h1] using h (j - 33) (by omega)
    · intro h j hj
      exact h _ (by omega)
  | parse => simp only [reservedClear, extract_zero_iff, Op.reserves, decide_eq_true_eq, Nat.zero_add]
  | reset => simp only [reservedClear, extract_zero_iff, Op.reserves, decide_eq_true_eq, Nat.zero_add]

theorem mask_bit (op : Op) : ∀ j : Fin 64, op.mask.getLsbD j = (op.reserves j || decide (62 ≤ j.val)) := by
  cases op <;> decide

theorem pattern_bit_low (op : Op) : ∀ j : Fin 62, op.pattern.getLsbD j = false := by
  cases op <;> decide

/-- The two top bits of a word are those of the pattern of its operation. -/
theorem pattern_bit_high (w : BitVec 64) (j : Nat) (h62 : 62 ≤ j) (h64 : j < 64) :
    (opOf w).pattern.getLsbD j = w.getLsbD j := by
  obtain rfl | rfl : j = 62 ∨ j = 63 := by omega
  all_goals
    rw [opOf]
    cases w.getLsbD 63 <;> cases w.getLsbD 62 <;> rfl

theorem mask_match_iff (w : BitVec 64) :
    w &&& (opOf w).mask = (opOf w).pattern ↔ reservedClear (opOf w) w = true := by
  rw [reservedClear_iff]
  constructor
  · intro h j hres
    have hj := reserves_lt hres
    have hbit := congrArg (fun v => v.getLsbD j) h
    simp only [BitVec.getLsbD_and, mask_bit (opOf w) ⟨j, by omega⟩, hres, pattern_bit_low (opOf w) ⟨j, hj⟩] at hbit
    simpa using hbit
  · intro h
    apply BitVec.eq_of_getLsbD_eq
    intro j hj
    rw [BitVec.getLsbD_and, mask_bit (opOf w) ⟨j, hj⟩]
    by_cases h62 : 62 ≤ j
    · simp [h62, pattern_bit_high w j h62 hj]
    · rw [pattern_bit_low (opOf w) ⟨j, by omega⟩]
      cases hres : (opOf w).reserves j with
      | false => simp [h62]
      | true => simp [h j hres]

theorem decode_of_reservedClear {w : BitVec 64} (h : reservedClear (opOf w) w = true) :
    decode w = .ok (operandsOf (opOf w) w) := by
  rw [decode, if_pos ((mask_match_iff w).2 h)]

theorem decode_of_not_reservedClear {w : BitVec 64} (h : reservedClear (opOf w) w = false) :
    decode w = .error (.reservedBits (opOf w)) := by
  rw [decode, if_neg (mt (mask_match_iff w).1 (by simp [h]))]

/-- What a word that decodes holds: its reserved bits are 0, and its fields are the operands. -/
theorem decode_ok {w : BitVec 64} {i : Instr} (h : decode w = .ok i) :
    reservedClear (opOf w) w = true ∧ i = operandsOf (opOf w) w := by
  cases hr : reservedClear (opOf w) w with
  | true =>
    rw [decode_of_reservedClear hr] at h
    exact ⟨rfl, (Except.ok.inj h).symm⟩
  | false =>
    rw [decode_of_not_reservedClear hr] at h
    cases h

/-- Settles O5: the mask test is the reserved bits' test bit by bit, and `decode` branches on it. -/
theorem decoderRejectsExactlyReservedBits : Obligations.DecoderRejectsExactlyReservedBits := by
  intro w
  refine ⟨mask_match_iff w, ⟨fun h => ?_, decode_of_not_reservedClear⟩, ⟨?_, fun h => ?_⟩⟩
  · by_contra hclear
    rw [decode_of_reservedClear (by simpa using hclear)] at h
    cases h
  · rintro ⟨i, hd, -⟩
    exact (decode_ok hd).1
  · exact ⟨_, decode_of_reservedClear h, op_operandsOf _ _⟩

/-! ### Encoding a decoded word -/

theorem opOf_code (w : BitVec 64) : w.extractLsb' 62 2 = (opOf w).code := by
  apply BitVec.eq_of_getLsbD_eq
  intro j hj
  rw [BitVec.getLsbD_extractLsb', opOf]
  obtain rfl | rfl : j = 0 ∨ j = 1 := by omega
  all_goals cases w.getLsbD 63 <;> cases w.getLsbD 62 <;> rfl

theorem toNat_extract {n : Nat} (w : BitVec n) (a k : Nat) :
    (w.extractLsb' a k).toNat = w.toNat / 2 ^ a % 2 ^ k := by
  rw [BitVec.extractLsb'_toNat, Nat.shiftRight_eq_div_pow]

/-- Two neighbouring fields of a word are one field. -/
theorem extract_append_extract {n : Nat} (w : BitVec n) (a k m : Nat) :
    w.extractLsb' (a + k) m ++ w.extractLsb' a k = w.extractLsb' a (m + k) :=
  BitVec.extractLsb'_append_extractLsb'_eq_extractLsb' rfl

theorem pack_unpack {g : BitVec 48} (h : g.extractLsb' 22 2 = 0#2) : (Command.unpack g).pack = g := by
  rw [Command.pack, ← h]
  simp only [Command.unpack]
  rw [extract_append_extract g 24 12 12, extract_append_extract g 22 2 24, extract_append_extract g 16 6 26,
    extract_append_extract g 12 4 32, extract_append_extract g 8 4 36, extract_append_extract g 0 8 40]
  simp

theorem level_bit_ofBit (w : BitVec 64) : (Level.ofBit (w.getLsbD 32)).bit = w.extractLsb' 32 1 := by
  apply BitVec.eq_of_getLsbD_eq
  intro j hj
  obtain rfl : j = 0 := by omega
  rw [BitVec.getLsbD_extractLsb']
  cases w.getLsbD 32 <;> rfl

/-- A word is its operation code, its reserved bits and its operands, in the order of its format. -/
theorem encode_operandsOf {w : BitVec 64} (h : reservedClear (opOf w) w = true) :
    encode (operandsOf (opOf w) w) = w := by
  have hcode := opOf_code w
  generalize opOf w = op at h hcode
  cases op with
  | encode =>
    obtain ⟨h48, h22⟩ : w.extractLsb' 48 14 = 0#14 ∧ w.extractLsb' 22 2 = 0#2 := by
      simpa [reservedClear] using h
    have hinner : (w.extractLsb' 0 48).extractLsb' 22 2 = w.extractLsb' 22 2 := by
      apply BitVec.eq_of_toNat_eq
      simp only [toNat_extract]
      omega
    have hpack : (Command.unpack (w.extractLsb' 0 48)).pack = w.extractLsb' 0 48 :=
      pack_unpack (hinner.trans h22)
    rw [operandsOf, encode, hpack, show 0b00#2 = w.extractLsb' 62 2 from hcode.symm, ← h48]
    rw [extract_append_extract w 48 14 2, extract_append_extract w 0 48 16]
    simp
  | feed =>
    have hzero : w.extractLsb' 33 29 = 0#29 := by simpa [reservedClear] using h
    rw [operandsOf, encode, level_bit_ofBit, show 0b01#2 = w.extractLsb' 62 2 from hcode.symm, ← hzero]
    rw [extract_append_extract w 33 29 2, extract_append_extract w 32 1 31, extract_append_extract w 0 32 32]
    simp
  | parse =>
    have hzero : w.extractLsb' 0 62 = 0#62 := by simpa [reservedClear] using h
    rw [operandsOf, encode, show 0b10#2 = w.extractLsb' 62 2 from hcode.symm, ← hzero,
      extract_append_extract w 0 62 2]
    simp
  | reset =>
    have hzero : w.extractLsb' 0 62 = 0#62 := by simpa [reservedClear] using h
    rw [operandsOf, encode, show 0b11#2 = w.extractLsb' 62 2 from hcode.symm, ← hzero,
      extract_append_extract w 0 62 2]
    simp

/-- Settles O4: a word that decodes has its reserved bits 0, and its fields spell it out again. -/
theorem encodeOfDecodeIsTheWord : Obligations.EncodeOfDecodeIsTheWord := by
  intro w i hd
  obtain ⟨hclear, rfl⟩ := decode_ok hd
  exact encode_operandsOf hclear

/-! ### The operands as numbers -/

theorem getLsbD_iff_toNat {w : Nat} (b : BitVec w) (i : Nat) : b.getLsbD i = true ↔ b.toNat / 2 ^ i % 2 = 1 := by
  rw [← BitVec.testBit_toNat, Nat.testBit_eq_decide_div_mod_eq, decide_eq_true_eq]

theorem toNat_div_of_decode {w : BitVec 64} {i : Instr} (h : decode w = .ok i) :
    w.toNat / 2 ^ 62 = i.op.code.toNat := by
  obtain ⟨-, rfl⟩ := decode_ok h
  have hw := w.isLt
  rw [op_operandsOf, ← opOf_code, toNat_extract]
  omega

theorem ofBit_eq_H_iff (b : Bool) : Level.ofBit b = .H ↔ b = true := by cases b <;> decide

/-- Settles O6: the operands of a word that decodes are extracted fields of it. -/
theorem operandsAreTheirBitFields : Obligations.OperandsAreTheirBitFields := by
  intro w
  refine ⟨fun c hd => ⟨toNat_div_of_decode hd, ?_⟩, fun lv d hd => ⟨toNat_div_of_decode hd, ?_⟩,
    toNat_div_of_decode, toNat_div_of_decode⟩
  · obtain ⟨-, hi⟩ := decode_ok hd
    generalize opOf w = op at hi
    cases op <;> simp only [operandsOf, reduceCtorEq, Instr.encode.injEq] at hi
    subst hi
    simp only [Command.unpack, toNat_extract]
    omega
  · obtain ⟨-, hi⟩ := decode_ok hd
    generalize opOf w = op at hi
    cases op <;> simp only [operandsOf, reduceCtorEq, Instr.feed.injEq] at hi
    obtain ⟨rfl, rfl⟩ := hi
    refine ⟨by simp only [toNat_extract, pow_zero, Nat.div_one], ?_⟩
    rw [ofBit_eq_H_iff, getLsbD_iff_toNat]

/-! ### Assembler lines -/

theorem decode_request_word (i : Instr) (bus : BitVec 424) : decode (i.request bus).word = .ok i := decode_encode i

theorem wellFormed_of_request {line : AsmLine} {bus : BitVec 424} {r : Request}
    (h : line.request bus = some r) : line.wellFormed = true := by
  by_contra hw
  simp [AsmLine.request, hw] at h

/-- Byte `k` of the bus a PARSE line drives is the number at place `k` of the line. -/
theorem byteOf_parse_line {frame : List Nat} (hlen : frame.length = 53) (hbytes : ∀ b ∈ frame, b < 2 ^ 8)
    (k : Fin 53) :
    frame[k.val]? = some (byteOf (BitVec.ofNat 424 (bytesToNat (frame.map (BitVec.ofNat 8)))) k).toNat := by
  have hk : k.val < frame.length := by omega
  have hlt := bytesToNat_lt (frame.map (BitVec.ofNat 8))
  rw [List.length_map, hlen] at hlt
  rw [toNat_byteOf, BitVec.toNat_ofNat, Nat.mod_eq_of_lt hlt,
    bytesToNat_digit _ _ (by rw [List.length_map]; exact hk), List.getElem_map, BitVec.toNat_ofNat,
    Nat.mod_eq_of_lt (hbytes _ (List.getElem_mem hk)), List.getElem?_eq_getElem hk]

/-- Settles O7: a line that fits gives the request of an instruction, whose operands are the line's numbers
because they fit. -/
theorem assemblerLinesGiveTheirOperands : Obligations.AssemblerLinesGiveTheirOperands := by
  intro bus
  refine ⟨fun line => ?_, fun upd mode fan temp ton toff r h => ?_, fun lv n r h => ?_, fun frame r h => ?_,
    fun r h => ?_⟩
  · cases hw : line.wellFormed with
    | false => simp [AsmLine.request, hw]
    | true => cases line <;> simp [AsmLine.request, hw]
  · have hw := wellFormed_of_request h
    simp only [AsmLine.request, hw, if_true, Option.some.injEq] at h
    subst h
    simp only [AsmLine.wellFormed, Bool.and_eq_true, decide_eq_true_eq] at hw
    obtain ⟨⟨⟨⟨⟨hupd, hmode⟩, hfan⟩, htemp⟩, hton⟩, htoff⟩ := hw
    refine ⟨_, decode_request_word _ _, ?_⟩
    simp only [BitVec.toNat_ofNat, Nat.mod_eq_of_lt, hupd, hmode, hfan, htemp, hton, htoff, and_self]
  · have hw := wellFormed_of_request h
    simp only [AsmLine.request, hw, if_true, Option.some.injEq] at h
    subst h
    simp only [AsmLine.wellFormed, decide_eq_true_eq] at hw
    exact ⟨_, decode_request_word _ _, by rw [BitVec.toNat_ofNat, Nat.mod_eq_of_lt hw]⟩
  · have hw := wellFormed_of_request h
    simp only [AsmLine.request, hw, if_true, Option.some.injEq] at h
    subst h
    simp only [AsmLine.wellFormed, Bool.and_eq_true, beq_iff_eq, List.all_eq_true, decide_eq_true_eq] at hw
    obtain ⟨hlen, hbytes⟩ := hw
    exact ⟨decode_request_word _ _, byteOf_parse_line hlen hbytes⟩
  · obtain rfl := Option.some.inj h
    exact decode_request_word _ _

/-! ### Words written out in the spec -/

/-- Settles O1: the seven words of R102 are computed by `encode`, and `decode` is its inverse. -/
theorem referenceFeedWordsEncodeAndDecode : Obligations.ReferenceFeedWordsEncodeAndDecode := by
  intro p hp
  have hword : encode p.1 = p.2 := by
    revert p
    decide
  exact ⟨hword, hword ▸ decode_encode p.1⟩

/-- Settles O2: the three legal words are encodings, and the two others each have a reserved bit set. -/
theorem writtenOutWordsDecode : Obligations.WrittenOutWordsDecode :=
  ⟨decode_encode (.encode ⟨0x13, 6, 3, 22, 1, 4095⟩), decode_encode .parse, decode_encode .reset,
    decode_of_not_reservedClear (w := 0x0000000000400000) (by decide),
    decode_of_not_reservedClear (w := 0x400001000000019A) (by decide)⟩

end Sys2Proof

namespace Sys2Proof.Machine

/-- Settles O9: an illegal word is rejected with its operation, and `step` answers without the decoder. -/
theorem illegalRequestOnlyAnswers : Obligations.IllegalRequestOnlyAnswers := by
  intro s r rest hw hclear
  have hreject := decode_of_not_reservedClear hclear
  obtain ⟨hkind, hop, hzero⟩ := illegal_word_fields (opOf r.word)
  refine ⟨bareResponse (.illegalRequest (opOf r.word)), hkind, hop.trans (opOf_code r.word).symm, hzero,
    noBus_bareResponse _, fun d => ?_⟩
  exact step_of_serves (s := s.withDec d) hw (.illegal _ hreject)

end Sys2Proof.Machine
end

section
/-! SUPPORT. Runs: a sequence of requests served one after the other, as a relation on the decoder record
(20_memory.md R60, R62). -/

namespace Sys2Proof.Machine

/-- The requests `rs` served in order from the decoder `d`: their responses and the decoder they leave. -/
inductive ServesAll : Decoder → List Request → List Response → Decoder → Prop
  | nil (d : Decoder) : ServesAll d [] [] d
  | cons {d d' d'' : Decoder} {r : Request} {rs : List Request} {rsp : Response} {rsps : List Response} :
      Serves d r d' rsp → ServesAll d' rs rsps d'' → ServesAll d (r :: rs) (rsp :: rsps) d''

theorem servesAll_length {d d' : Decoder} {rs : List Request} {rsps : List Response}
    (h : ServesAll d rs rsps d') : rsps.length = rs.length := by
  induction h with
  | nil d => rfl
  | cons _ _ ih => rw [List.length_cons, List.length_cons, ih]

theorem trace_succ_of_step {n : Nat} {s t : State} (h : step s = .next t) :
    trace (n + 1) s = (trace n t).map fun p => (t.response :: p.1, p.2) := by
  rw [trace, h]

/-- A trace that exists began with a step. -/
theorem step_of_trace_succ {n : Nat} {s u : State} {l : List (Option Response)}
    (h : trace (n + 1) s = some (l, u)) :
    ∃ t l', step s = .next t ∧ trace n t = some (l', u) ∧ l = t.response :: l' := by
  cases hstep : step s with
  | next t =>
    rw [trace_succ_of_step hstep, Option.map_eq_some_iff] at h
    obtain ⟨⟨l', u'⟩, htrace, heq⟩ := h
    obtain ⟨rfl, rfl⟩ := Prod.mk.inj heq
    exact ⟨t, l', rfl, htrace, rfl⟩
  | fault e => simp [trace, hstep] at h
  | refused e => simp [trace, hstep] at h

/-- A run of the port's first requests is a trace, with the rest of the port as it was. -/
theorem trace_of_servesAll {d d' : Decoder} {rs rest : List Request} {rsps : List Response}
    (h : ServesAll d rs rsps d') : ∀ {s : State}, s.dec = d → s.waiting = rs ++ rest →
      ∃ t, trace rs.length s = some (rsps.map some, t) ∧ t.waiting = rest ∧ t.dec = d' := by
  induction h with
  | nil d =>
    intro s hdec hw
    exact ⟨s, rfl, hw, hdec⟩
  | @cons d d1 d2 r rs rsp rsps hs _ ih =>
    intro s hdec hw
    have hstep : step s = .next (State.served r (rs ++ rest) d1 rsp) := step_of_serves hw (hdec ▸ hs)
    obtain ⟨t, htrace, hrest, hend⟩ := ih (s := State.served r (rs ++ rest) d1 rsp) rfl rfl
    refine ⟨t, ?_, hrest, hend⟩
    rw [List.length_cons, trace_succ_of_step hstep, htrace]
    rfl

/-- A trace over the port's first requests is a run of them. -/
theorem servesAll_of_trace {rs rest : List Request} : ∀ {s t : State} {l : List (Option Response)},
    s.waiting = rs ++ rest → trace rs.length s = some (l, t) →
      ∃ rsps, l = rsps.map some ∧ ServesAll s.dec rs rsps t.dec := by
  induction rs with
  | nil =>
    intro s t l hw h
    obtain ⟨rfl, rfl⟩ := Prod.mk.inj (Option.some.inj h)
    exact ⟨[], rfl, .nil _⟩
  | cons r rs ih =>
    intro s u l hw h
    obtain ⟨t, l', hstep, htrace, rfl⟩ := step_of_trace_succ h
    obtain ⟨d', rsp, hs, rfl⟩ := serves_of_step hw hstep
    obtain ⟨rsps, rfl, hall⟩ := ih rfl htrace
    exact ⟨rsp :: rsps, rfl, .cons hs hall⟩

theorem servesAll_exists {d : Decoder} (hi : d.Inv) (rs : List Request) :
    ∃ rsps d', ServesAll d rs rsps d' ∧ d'.Inv := by
  induction rs generalizing d with
  | nil => exact ⟨[], d, .nil d, hi⟩
  | cons r rs ih =>
    obtain ⟨d', rsp, hs⟩ := serves_exists hi r
    obtain ⟨rsps, d'', hall, hi''⟩ := ih (inv_of_serves hi hs)
    exact ⟨rsp :: rsps, d'', .cons hs hall, hi''⟩

/-- Settles O12: from the invariant there is a run of all waiting requests, and it ends in the invariant. -/
theorem allWaitingRequestsAreServed : Obligations.AllWaitingRequestsAreServed := by
  intro s hi
  obtain ⟨rsps, d', hall, hi'⟩ := servesAll_exists hi s.waiting
  obtain ⟨t, htrace, hrest, rfl⟩ := trace_of_servesAll (rest := []) hall rfl (List.append_nil _).symm
  refine ⟨_, t, htrace, ?_, fun r hr => ?_, hrest, hi'⟩
  · rw [List.length_map, servesAll_length hall]
  · obtain ⟨rsp, -, rfl⟩ := List.mem_map.1 hr
    rfl

/-- A request that is no legal FEED and no legal RESET leaves the decoder as it was (10_state.md R36, R37). -/
theorem serves_of_not_touches {d d' : Decoder} {r : Request} {rsp : Response} (h : Serves d r d' rsp)
    (ht : r.touchesDecoder = false) : d' = d := by
  cases h with
  | illegal => rfl
  | encode => rfl
  | parse => rfl
  | reset hd => simp [Request.touchesDecoder, hd] at ht
  | feed lv x hd => simp [Request.touchesDecoder, hd] at ht

theorem servesAll_filter {d d' : Decoder} {rs : List Request} {rsps : List Response}
    (h : ServesAll d rs rsps d') : ServesAll d (rs.filter Request.touchesDecoder)
      (((rs.zip rsps).filter fun p => p.1.touchesDecoder).map Prod.snd) d' := by
  induction h with
  | nil d => exact .nil d
  | @cons d d1 d2 r rs rsp rsps hs _ ih =>
    rw [List.zip_cons_cons]
    cases ht : r.touchesDecoder with
    | true =>
      rw [List.filter_cons_of_pos ht, List.filter_cons_of_pos (by exact ht), List.map_cons]
      exact .cons hs ih
    | false =>
      rw [List.filter_cons_of_neg (by simp [ht]), List.filter_cons_of_neg (by simp [ht])]
      exact serves_of_not_touches hs ht ▸ ih

theorem filter_zip_some (rs : List Request) (rsps : List Response) (p : Request → Bool) :
    ((rs.zip (rsps.map some)).filter fun q => p q.1).map Prod.snd =
      (((rs.zip rsps).filter fun q => p q.1).map Prod.snd).map some := by
  rw [List.zip_map_right, List.filter_map, List.map_map, List.map_map]
  rfl

/-- Settles O57: the requests taken out left the decoder as it was, so the others are served from the same
decoders. -/
theorem interleavedRequestsDoNotDisturbTheDecode : Obligations.InterleavedRequestsDoNotDisturbTheDecode := by
  intro s t rs l htrace
  obtain ⟨rsps, rfl, hall⟩ := servesAll_of_trace (rest := []) (List.append_nil rs).symm htrace
  obtain ⟨t', htrace', -, hdec⟩ := trace_of_servesAll (rest := []) (servesAll_filter hall)
    (s := s.withRequests (rs.filter Request.touchesDecoder)) rfl (List.append_nil _).symm
  exact ⟨t', hdec, by rw [htrace', filter_zip_some]⟩

/-! ### The count of events (30_encoding.md R94) -/

/-- How many events of a frame the decoder has taken since INIT: one for each preamble stage, sixteen for a byte
and two for a bit, one for the mark of a bit. -/
def Decoder.progress (d : Decoder) : Nat :=
  d.stage.code.toNat + 16 * d.byteIndex.toNat + 2 * d.nbits.toNat + (!d.carrier).toNat

@[simp] theorem progress_init : Decoder.init.progress = 0 := rfl

theorem progress_of_effect {d d' : Decoder} {lv : Level} {x : Duration} {rsp : Response}
    (h : FeedEffect d lv x d' rsp) : d'.progress ≤ d.progress + 1 := by
  cases h with
  | ignored => omega
  | advanced st ha =>
    have hcode : st.code.toNat ≤ d.stage.code.toNat + 1 := by
      generalize d.stage = st0 at ha
      cases ha <;> decide
    simp only [Decoder.progress, setStage_stage, setStage_byteIndex, setStage_nbits, setStage_carrier]
    omega
  | marked hs hc => simp [Decoder.progress, hc]
  | violated => simp
  | bit b hs hc _ _ hn =>
    simp only [Decoder.progress, pushBit_stage, pushBit_byteIndex, pushBit_nbits, pushBit_carrier,
      setCarrier_stage, setCarrier_byteIndex, setCarrier_nbits, setCarrier_carrier, toNat_nbits_succ hn, hc]
    simp
    omega
  | byte b v c hv _ _ h53 =>
    simp only [Decoder.progress, storeByte_stage, storeByte_byteIndex, storeByte_nbits, storeByte_carrier,
      clearBits_stage, clearBits_byteIndex, clearBits_nbits, clearBits_carrier, setCarrier_stage,
      setCarrier_byteIndex, setCarrier_carrier, toNat_byteIndex_succ h53, hv.carrier, hv.nbits]
    simp
    omega
  | mismatch => simp
  | complete => simp

theorem progress_of_serves {d d' : Decoder} {r : Request} {rsp : Response} (h : Serves d r d' rsp) :
    d'.progress ≤ d.progress + 1 := by
  cases h with
  | illegal => omega
  | encode => omega
  | parse => omega
  | reset => simp
  | feed _ _ _ he => exact progress_of_effect he

/-- A frame completes at the last of its 852 events alone. -/
theorem progress_of_complete {d d' : Decoder} {r : Request} {rsp : Response} (h : Serves d r d' rsp)
    (hk : rsp.kind = 2) : d.progress = 851 := by
  cases h with
  | feed lv x _ he =>
    cases he with
    | complete b v dv f hv _ _ h52 => simp [Decoder.progress, hv.stage, hv.carrier, hv.nbits, h52, Stage.code]
    | _ => simp [kind_bareResponse, Reply.kind] at hk
  | illegal => simp [kind_bareResponse, Reply.kind] at hk
  | encode => simp [kind_frameResponse] at hk
  | parse => simp [kind_parseResponse, Reply.kind] at hk
  | reset => simp [kind_bareResponse, Reply.kind] at hk

theorem no_complete_below {d d' : Decoder} {rs : List Request} {rsps : List Response} {rsp : Response}
    (h : ServesAll d rs rsps d') (hlt : d.progress + rs.length ≤ 851) (hmem : rsp ∈ rsps) : rsp.kind ≠ 2 := by
  induction h with
  | nil d => simp at hmem
  | cons hs _ ih =>
    rw [List.length_cons] at hlt
    have hnext := progress_of_serves hs
    obtain rfl | hmem := List.mem_cons.1 hmem
    · intro hk
      have := progress_of_complete hs hk
      omega
    · exact ih (by omega) hmem

/-- Settles O42: each request takes the decoder one event further at most, and the frame completes at the
852nd. -/
theorem noFrameCompletesBefore852Requests : Obligations.NoFrameCompletesBefore852Requests := by
  intro s t n l rsp hinit hn h851 htrace hmem
  have hlen : (s.waiting.take n).length = n := List.length_take_of_le hn
  obtain ⟨rsps, rfl, hall⟩ := servesAll_of_trace (rs := s.waiting.take n) (List.take_append_drop n _).symm
    (hlen.symm ▸ htrace)
  refine no_complete_below hall ?_ (by simpa using hmem)
  rw [hinit, progress_init, hlen]
  omega

end Sys2Proof.Machine
end

section
/-! SUPPORT. When the decoder becomes INIT, and which operations are idempotent (10_state.md R35,
20_memory.md R61). -/

namespace Sys2Proof.Machine

theorem ne_init_of_stage {d : Decoder} (h : d.stage = .dataMode) : d ≠ Decoder.init := by
  rintro rfl
  cases h

/-- The events of FEED that put the decoder at INIT are those answered otherwise than PENDING. -/
theorem init_of_effect {d d' : Decoder} {lv : Level} {x : Duration} {rsp : Response}
    (h : FeedEffect d lv x d' rsp) : (rsp.kind = 1 ∧ (d ≠ Decoder.init → d' ≠ Decoder.init)) ∨
      ((rsp.kind = 2 ∨ rsp.kind = 3 ∨ rsp.kind = 4) ∧ d' = Decoder.init) := by
  cases h with
  | ignored => exact .inl ⟨kind_bareResponse _, id⟩
  | advanced st ha =>
    refine .inl ⟨kind_bareResponse _, fun _ h => ?_⟩
    have hst : st = .idle := congrArg Decoder.stage h
    subst hst
    generalize d.stage = st0 at ha
    cases ha
  | marked hs => exact .inl ⟨kind_bareResponse _, fun _ => ne_init_of_stage hs⟩
  | bit b hs => exact .inl ⟨kind_bareResponse _, fun _ => ne_init_of_stage hs⟩
  | byte b v c hv => exact .inl ⟨kind_bareResponse _, fun _ => ne_init_of_stage hv.stage⟩
  | violated => exact .inr ⟨.inr (.inl (kind_bareResponse _)), rfl⟩
  | mismatch => exact .inr ⟨.inr (.inr (kind_bareResponse _)), rfl⟩
  | complete => exact .inr ⟨.inl (kind_parseResponse _ _ _), rfl⟩

/-- Settles O56: RESET writes INIT, FEED writes it with kinds 2 to 4 alone, and nothing else writes the
decoder. -/
theorem decoderBecomesInitOnlyAtTheListedEvents : Obligations.DecoderBecomesInitOnlyAtTheListedEvents := by
  intro s t r rest rsp hw hstep hrsp
  obtain ⟨d', rsp', hs, rfl⟩ := serves_of_step hw hstep
  obtain rfl := Option.some.inj hrsp
  rw [served_dec]
  cases hs with
  | illegal op hd => simp [hd, kind_bareResponse, Reply.kind]
  | encode c hd => simp [hd, kind_frameResponse]
  | parse hd => simp [hd, kind_parseResponse, Reply.kind]
  | reset hd => simp [hd]
  | feed lv x hd he =>
    obtain ⟨hk, hne⟩ | ⟨hk, rfl⟩ := init_of_effect he
    · refine ⟨fun h => ?_, fun h1 h2 => absurd h2 (hne h1)⟩
      simp [hd, hk] at h
    · exact ⟨fun _ => rfl, fun _ _ => .inr hk⟩

/-- Settles O55: an operation other than FEED answers the same from the state it left. A leader mark fed twice
is a violation the second time. -/
theorem allButFeedAreIdempotent : Obligations.AllButFeedAreIdempotent := by
  refine ⟨fun i s t hop hexec => ?_, .L, 29500, State.reset, _, inv_init, rfl, fun h => ?_⟩
  · obtain ⟨c, rfl, rfl⟩ | ⟨rfl, rfl⟩ | ⟨rfl, rfl⟩ | ⟨lv, x, d', rsp, rfl, -⟩ := exec_next hexec
    · rfl
    · rfl
    · rfl
    · exact absurd rfl hop
  · have hdec : Decoder.init = Decoder.init.setStage .leaderMark :=
      congrArg State.dec (Host.Outcome.next.inj h)
    exact absurd hdec (by decide)

end Sys2Proof.Machine
end

section
/-! SUPPORT. PARSE undoes ENCODE: the fields of a serialized command, and the bytes of a parsed payload
(40_encoder.md R116, 42_parser.md R192 to R199). -/

namespace Sys2Proof.Machine

/-- Only OFF has the class byte 0xE1 (30_encoding.md R83). -/
theorem modeClass_eq_e1_iff (p : Params) (mode : BitVec 4) : modeClass p mode = 0xE1 ↔ mode = p.modeOff := by
  rw [modeClass]
  split
  · simp [*]
  · split <;> simp [*]

theorem command_eq_of_fields {a b : Command} (hupd : a.upd = b.upd) (hmode : a.mode = b.mode)
    (hfan : a.fan = b.fan) (htemp : a.temp = b.temp) (hton : a.ton = b.ton) (htoff : a.toff = b.toff) : a = b := by
  cases a
  cases b
  exact Command.mk.injEq .. ▸ ⟨hupd, hmode, hfan, htemp, hton, htoff⟩

section RoundTrip
variable (p : Params) (c : Command)

theorem deserialize_serialize_mode : (deserialize p (serialize p c)).mode = c.mode := by
  by_cases hoff : c.mode = p.modeOff
  · rw [deserialize_mode_off _ _ ((serialize_class p c).trans (modeClass_off hoff)), hoff]
  · have hclass : (serialize p c)[12] ≠ 0xE1 := mt (modeClass_eq_e1_iff p c.mode).1 hoff
    have hlt := c.mode.isLt
    apply BitVec.eq_of_toNat_eq
    rw [deserialize_mode _ _ hclass, serialize_fan_mode, modeNibble_of_ne_off hoff]
    omega

theorem deserialize_serialize_fan : (deserialize p (serialize p c)).fan = c.fan := by
  have hlt := (modeNibble p c.mode).isLt
  apply BitVec.eq_of_toNat_eq
  rw [deserialize_fan, serialize_fan_mode]
  omega

theorem deserialize_serialize_temp : (deserialize p (serialize p c)).temp = c.temp := by
  apply BitVec.eq_of_toNat_eq
  rw [deserialize_temp, serialize_temp]
  omega

theorem deserialize_serialize_ton : (deserialize p (serialize p c)).ton = c.ton := by
  have hlt := c.ton.isLt
  apply BitVec.eq_of_toNat_eq
  rw [deserialize_ton, serialize_flags, serialize_ton_low]
  split_ifs <;> omega

theorem deserialize_serialize_toff : (deserialize p (serialize p c)).toff = c.toff := by
  apply BitVec.eq_of_toNat_eq
  rw [deserialize_toff, serialize_toff_high, serialize_toff_low]
  omega

/-- The parser reads back what the serializer wrote, field by field. -/
theorem deserialize_serialize : deserialize p (serialize p c) = c := by
  have hupd : (deserialize p (serialize p c)).upd = c.upd := rfl
  exact command_eq_of_fields hupd (deserialize_serialize_mode p c) (deserialize_serialize_fan p c)
    (deserialize_serialize_temp p c) (deserialize_serialize_ton p c) (deserialize_serialize_toff p c)

theorem fieldWarnings_serialize : fieldWarnings p (serialize p c) = 0 := by
  rw [fieldWarnings, deserialize_serialize, warnMask_eq_zero]

/-- The parse response of an encoded frame is its command, with no warning. -/
theorem parseResponse_encodeFrame (r : Reply) :
    parseResponse p r (encodeFrame p c) = commandResponse r c 0 (serialize p c) := by
  rw [parseResponse, encodeFrame, dataBytes_double, deserialize_serialize, fieldWarnings_serialize]

end RoundTrip

/-- Settles O26: PARSE reads the payload that ENCODE doubled, and the payload is its command's. -/
theorem parseOfEncodeIsTheCommand : Obligations.ParseOfEncodeIsTheCommand := by
  intro c s t rsp out hexec hrsp hout
  obtain rfl := frameOut_of_exec_encode hexec hrsp hout
  refine ⟨busOf (serialize Config.params c), fun i => ?_, ?_⟩
  · rw [byteOf_busOf _ _ i.isLt, byteOf_encodeFrame_data _ _ _ i.isLt]
  · rw [exec_parse_frameIn, frameOfBus_busOf, parseResponse_encodeFrame]
    rfl

/-! ### The frame ENCODE drives -/

/-- Settles O18: ENCODE drives the doubled payload, which `double` and `serialize` give byte by byte. -/
theorem encodeAnswersWithAWellFormedFrame : Obligations.EncodeAnswersWithAWellFormedFrame := by
  intro c s
  refine ⟨busOf (encodeFrame Config.params c), rfl, fun k => ?_, fun i => ?_, fun i b hb => ?_⟩
  · rw [byteOf_busOf _ _ (by omega)]
    exact double_header _ _ _ k.isLt
  · rw [byteOf_encodeFrame_data _ _ _ i.isLt, byteOf_busOf _ _ (by omega), ← xor_ff_eq_not]
    exact double_complement _ _ _ i.isLt
  · rw [byteOf_encodeFrame_data _ _ _ i.isLt]
    exact serialize_const _ _ i b hb

/-- Settles O19: the data bytes of the frame are the serializer's, and these are its eight variable ones. -/
theorem encodePacksTheCommandFields : Obligations.EncodePacksTheCommandFields := by
  intro c s t rsp out hexec hrsp hout raw
  obtain rfl := frameOut_of_exec_encode hexec hrsp hout
  have hbyte (i : Nat) (hi : i < 25) : raw i = (serialize Config.params c)[i] := byteOf_encodeFrame_data _ _ i hi
  rw [hbyte 4 (by decide), hbyte 5 (by decide), hbyte 7 (by decide), hbyte 8 (by decide), hbyte 9 (by decide),
    hbyte 10 (by decide), hbyte 11 (by decide), hbyte 12 (by decide)]
  exact ⟨rfl, serialize_temp _ c, serialize_toff_low _ c, serialize_toff_high _ c, serialize_ton_low _ c,
    serialize_flags _ c, serialize_fan_mode _ c, serialize_class _ c⟩

/-! ### What PARSE answers -/

/-- The payload on FRAME_IN. -/
def State.payload (s : State) : Raw := dataBytes (frameOfBus s.frameIn)

theorem byteOf_frameIn (s : State) (i : Nat) (h : i < 25) : byteOf s.frameIn (2 * i + 3) = s.payload[i] :=
  (dataBytes_frameOfBus s.frameIn i h).symm

theorem exec_parse_payload (s : State) : exec .parse s = .next { s with response := some (commandResponse .done
    (deserialize Config.params s.payload) (fieldWarnings Config.params s.payload) s.payload) } := rfl

/-- The command and the warning mask of a PARSE that answered. -/
theorem buses_of_exec_parse {s t : State} {rsp : Response} (hexec : exec .parse s = .next t)
    (hrsp : t.response = some rsp) :
    rsp.cmdOut = some (deserialize Config.params s.payload).pack ∧
      rsp.warnOut = some (fieldWarnings Config.params s.payload) := by
  rw [exec_parse_payload] at hexec
  obtain rfl := Host.Outcome.next.inj hexec
  obtain rfl := Option.some.inj hrsp
  exact ⟨rfl, rfl⟩

section Pack
variable (c : Command)

theorem pack_upd : c.pack.extractLsb' 0 8 = c.upd := congrArg Command.upd (unpack_pack c)
theorem pack_mode : c.pack.extractLsb' 8 4 = c.mode := congrArg Command.mode (unpack_pack c)
theorem pack_fan : c.pack.extractLsb' 12 4 = c.fan := congrArg Command.fan (unpack_pack c)
theorem pack_temp : c.pack.extractLsb' 16 6 = c.temp := congrArg Command.temp (unpack_pack c)
theorem pack_ton : c.pack.extractLsb' 24 12 = c.ton := congrArg Command.ton (unpack_pack c)
theorem pack_toff : c.pack.extractLsb' 36 12 = c.toff := congrArg Command.toff (unpack_pack c)

end Pack

/-- Settles O22: CMD_OUT packs the deserialized payload, whose fields are the numbers of the formulas. -/
theorem parseReconstructsTheCommand : Obligations.ParseReconstructsTheCommand := by
  intro s
  refine ⟨(deserialize Config.params s.payload).pack, fieldWarnings Config.params s.payload, busOf s.payload,
    exec_parse_payload s, ?_⟩
  intro r
  have hbyte (i : Nat) (hi : i < 25) : r i = s.payload[i] := byteOf_frameIn s i hi
  rw [hbyte 4 (by decide), hbyte 5 (by decide), hbyte 7 (by decide), hbyte 8 (by decide), hbyte 9 (by decide),
    hbyte 10 (by decide), hbyte 11 (by decide), hbyte 12 (by decide)]
  rw [pack_upd, pack_mode, pack_fan, pack_temp, pack_ton, pack_toff, pack_reserved]
  refine ⟨rfl, deserialize_temp _ _, deserialize_fan _ _, deserialize_toff _ _, deserialize_ton _ _,
    deserialize_mode_off _ _, deserialize_mode _ _, rfl, fun i => ?_⟩
  rw [byteOf_busOf _ _ i.isLt, hbyte i i.isLt]

/-! ### Warnings -/

theorem fieldWarnings_bit (p : Params) (raw : Raw) (i : Nat) (h : i < 25) :
    (fieldWarnings p raw).getLsbD i = true ↔ raw[i] ≠ (serialize p (deserialize p raw))[i] := by
  rw [fieldWarnings, warnMask_bit _ _ ⟨i, h⟩]
  exact bne_iff_ne

/-- Settles O23: the mask compares the payload with what its own command serializes to. -/
theorem parseWarnsWhereReencodingDiffers : Obligations.ParseWarnsWhereReencodingDiffers := by
  intro s t u rsp rsp' cmd warn out hparse hrsp hcmd hwarn hencode hrsp' hout
  obtain ⟨hcmd', hwarn'⟩ := buses_of_exec_parse hparse hrsp
  obtain rfl := Option.some.inj (hcmd'.symm.trans hcmd)
  obtain rfl := Option.some.inj (hwarn'.symm.trans hwarn)
  obtain rfl := frameOut_of_exec_encode hencode hrsp' hout
  rw [unpack_pack]
  refine ⟨fun i => ?_, fun i b hb => ?_⟩
  · rw [fieldWarnings_bit _ _ _ i.isLt, byteOf_frameIn s _ i.isLt, byteOf_encodeFrame_data _ _ _ i.isLt]
  · rw [fieldWarnings_bit _ _ _ i.isLt, byteOf_frameIn s _ i.isLt]
    exact (serialize_const _ _ i b hb) ▸ Iff.rfl

/-- Settles O27: with no warning the payload is what its own command serializes to. -/
theorem warningFreePayloadReencodesToItself : Obligations.WarningFreePayloadReencodesToItself := by
  intro s t u rsp rsp' cmd out hparse hrsp hcmd hwarn hencode hrsp' hout i
  obtain ⟨hcmd', hwarn'⟩ := buses_of_exec_parse hparse hrsp
  obtain rfl := Option.some.inj (hcmd'.symm.trans hcmd)
  have hzero : fieldWarnings Config.params s.payload = 0 := Option.some.inj (hwarn'.symm.trans hwarn)
  have hself : s.payload = serialize Config.params (deserialize Config.params s.payload) := warnMask_eq_zero.1 hzero
  obtain rfl := frameOut_of_exec_encode hencode hrsp' hout
  rw [unpack_pack, byteOf_encodeFrame_data _ _ _ i.isLt, byteOf_frameIn s _ i.isLt, ← hself]

section VariablePositions
variable (p : Params) (raw : Raw)

theorem fieldWarnings_upd : (fieldWarnings p raw).getLsbD 4 = false := by
  rw [← Bool.not_eq_true, fieldWarnings_bit p raw 4 (by decide)]
  exact not_not.2 rfl

theorem fieldWarnings_toff_high : (fieldWarnings p raw).getLsbD 8 = false := by
  have := raw[7].isLt
  rw [← Bool.not_eq_true, fieldWarnings_bit p raw 8 (by decide), BitVec.toNat_ne, serialize_toff_high,
    deserialize_toff]
  omega

theorem fieldWarnings_ton_low : (fieldWarnings p raw).getLsbD 9 = false := by
  have := raw[9].isLt
  rw [← Bool.not_eq_true, fieldWarnings_bit p raw 9 (by decide), BitVec.toNat_ne, serialize_ton_low,
    deserialize_ton]
  omega

theorem fieldWarnings_temp : (fieldWarnings p raw).getLsbD 5 = true ↔ raw[5].toNat % 4 ≠ 0 := by
  rw [fieldWarnings_bit p raw 5 (by decide), BitVec.toNat_ne, serialize_temp, deserialize_temp]
  omega

theorem fieldWarnings_toff_low : (fieldWarnings p raw).getLsbD 7 = true ↔ raw[7].toNat % 16 ≠ 0 := by
  have := raw[7].isLt
  rw [fieldWarnings_bit p raw 7 (by decide), BitVec.toNat_ne, serialize_toff_low, deserialize_toff]
  omega

theorem fieldWarnings_flags : (fieldWarnings p raw).getLsbD 10 = true ↔ raw[10].toNat / 64 ≠ 0 ∨
    ((raw[10].getLsbD 4 = true) ↔ (deserialize p raw).toff = 0) ∨
    ((raw[10].getLsbD 5 = true) ↔ (deserialize p raw).ton = 0) := by
  have hton := deserialize_ton p raw
  have h9 := raw[9].isLt
  rw [fieldWarnings_bit p raw 10 (by decide), BitVec.toNat_ne, serialize_flags, getLsbD_iff_toNat,
    getLsbD_iff_toNat, hton]
  split_ifs with htoff0 hton0 hton0 <;> simp only [htoff0, hton0, iff_true, iff_false] <;> omega

theorem fieldWarnings_fan_mode : (fieldWarnings p raw).getLsbD 11 = true ↔
    (deserialize p raw).mode = p.modeOff ∧ raw[11].extractLsb' 0 4 ≠ p.modeHeating := by
  rw [fieldWarnings_bit p raw 11 (by decide), BitVec.toNat_ne, serialize_fan_mode, deserialize_fan,
    BitVec.toNat_ne, toNat_extract]
  by_cases hoff : (deserialize p raw).mode = p.modeOff
  · rw [modeNibble_off hoff]
    simp only [hoff, true_and]
    omega
  · have hclass : raw[12] ≠ 0xE1 := mt (deserialize_mode_off p raw) hoff
    rw [modeNibble_of_ne_off hoff, deserialize_mode p raw hclass]
    simp only [hoff, false_and, iff_false]
    omega

theorem fieldWarnings_class : (fieldWarnings p raw).getLsbD 12 = true ↔
    raw[12] ≠ modeClass p (deserialize p raw).mode := by
  rw [fieldWarnings_bit p raw 12 (by decide), serialize_class]

end VariablePositions

/-- Settles O24: the mask at each variable position. -/
theorem variablePositionsWarnInTheListedCases : Obligations.VariablePositionsWarnInTheListedCases := by
  intro s t rsp cmd warn hparse hrsp hcmd hwarn r c
  obtain ⟨hcmd', hwarn'⟩ := buses_of_exec_parse hparse hrsp
  obtain rfl := Option.some.inj (hcmd'.symm.trans hcmd)
  obtain rfl := Option.some.inj (hwarn'.symm.trans hwarn)
  have hc : c = deserialize Config.params s.payload := unpack_pack _
  have hbyte (i : Nat) (hi : i < 25) : r i = s.payload[i] := byteOf_frameIn s i hi
  rw [hc, hbyte 5 (by decide), hbyte 7 (by decide), hbyte 10 (by decide), hbyte 11 (by decide),
    hbyte 12 (by decide)]
  exact ⟨fieldWarnings_upd _ _, fieldWarnings_toff_high _ _, fieldWarnings_ton_low _ _, fieldWarnings_temp _ _,
    fieldWarnings_toff_low _ _, fieldWarnings_flags _ _, fieldWarnings_fan_mode _ _, fieldWarnings_class _ _⟩

/-! ### The frame of 53 zero bytes -/

theorem payload_of_zero {s : State} (h : s.frameIn = 0) : s.payload = Vector.replicate 25 0 := by
  apply Vector.ext
  intro i hi
  rw [← byteOf_frameIn s i hi, h, Vector.getElem_replicate]
  simp [byteOf]

theorem deserialize_zero (p : Params) : deserialize p (Vector.replicate 25 0) = ⟨0, 0, 0, 0, 0, 0⟩ := rfl

theorem zero_ne_modeClass (p : Params) (mode : BitVec 4) : 0 ≠ modeClass p mode := by
  rw [modeClass]
  split
  · decide
  · split <;> decide

/-- Code 0 is sent as HEATING's, which is not 0, where it is OFF's, and as itself elsewhere. -/
theorem modeNibble_zero_eq_zero_iff (p : Params) : modeNibble p 0 = 0 ↔ p.modeOff ≠ 0 := by
  by_cases hoff : p.modeOff = 0
  · rw [modeNibble_off hoff.symm]
    exact iff_of_false (fun h => p.off_ne_heating (hoff.trans h.symm)) (not_not.2 hoff)
  · rw [modeNibble_of_ne_off (Ne.symm hoff)]
    exact iff_of_true rfl hoff

theorem serialize_zero (p : Params) : serialize p ⟨0, 0, 0, 0, 0, 0⟩ =
    #v[0x40, 0xFF, 0xCC, 0x92, 0, 0, 0, 0, 0, 0, 0, BitVec.setWidth 8 (modeNibble p 0), modeClass p 0,
      0, 0, 0x80, 0x03, 0x01, 0x88, 0, 0, 0xFF, 0xFF, 0xFF, 0xFF] := by
  simp [serialize]

theorem zero_eq_setWidth_nibble_iff : ∀ n : BitVec 4, 0 = BitVec.setWidth 8 n ↔ n = 0 := by decide

/-- The constants that are not 0 and the class byte differ from a zero payload everywhere, and the fan and mode
byte, position 11, where the mode nibble of code 0 is not 0. -/
theorem mask_zero_bit (p : Params) (i : Fin 25) :
    ((Vector.replicate 25 0 : Raw)[i] != (serialize p ⟨0, 0, 0, 0, 0, 0⟩)[i]) =
      (if p.modeOff = 0 then 0x1E7980F#25 else 0x1E7900F#25).getLsbD i := by
  have hclass := zero_ne_modeClass p 0
  have hnibble := modeNibble_zero_eq_zero_iff p
  rw [← zero_eq_setWidth_nibble_iff] at hnibble
  rw [serialize_zero]
  generalize modeClass p 0 = cls at *
  generalize BitVec.setWidth 8 (modeNibble p 0) = nib at *
  by_cases hoff : p.modeOff = 0
  · fin_cases i <;> simp_all
  · fin_cases i <;> simp_all

theorem fieldWarnings_zero (p : Params) : fieldWarnings p (Vector.replicate 25 0) =
    if p.modeOff = 0 then 0x1E7980F else 0x1E7900F := by
  apply BitVec.eq_of_getLsbD_eq
  intro i hi
  rw [fieldWarnings, warnMask_bit _ _ ⟨i, hi⟩, deserialize_zero]
  exact mask_zero_bit p ⟨i, hi⟩

/-- Settles O28: the zero payload spells command 0, and its mask is `fieldWarnings_zero`. -/
theorem parseOfTheZeroFrame : Obligations.ParseOfTheZeroFrame := by
  intro s t rsp hzero hparse hrsp
  obtain ⟨hcmd, hwarn⟩ := buses_of_exec_parse hparse hrsp
  rw [payload_of_zero hzero] at hcmd hwarn
  rw [fieldWarnings_zero] at hwarn
  rw [hcmd, hwarn]
  exact ⟨rfl, fun h => by rw [if_pos h], fun h => by rw [if_neg h]⟩

end Sys2Proof.Machine
end

section
/-! SUPPORT. The reference transmission as a run of FEED events (41_decoder.md R175, 30_encoding.md R94, R101). -/

namespace Sys2Proof.Machine

/-- FEED events taken in order from the decoder `d`: their responses and the decoder they leave. -/
inductive FeedRun : Decoder → List Instr → List Response → Decoder → Prop
  | nil (d : Decoder) : FeedRun d [] [] d
  | cons {d d' d'' : Decoder} {lv : Level} {x : Duration} {is : List Instr} {rsp : Response}
      {rsps : List Response} : FeedEffect d lv x d' rsp → FeedRun d' is rsps d'' →
      FeedRun d (.feed lv x :: is) (rsp :: rsps) d''

theorem feedRun_append {d d' d'' : Decoder} {is is' : List Instr} {rsps rsps' : List Response}
    (h : FeedRun d is rsps d') (h' : FeedRun d' is' rsps' d'') : FeedRun d (is ++ is') (rsps ++ rsps') d'' := by
  induction h with
  | nil d => exact h'
  | cons he _ ih => exact .cons he (ih h')

theorem feedRun_single {d d' : Decoder} {lv : Level} {x : Duration} {rsp : Response}
    (h : FeedEffect d lv x d' rsp) : FeedRun d [.feed lv x] [rsp] d' := .cons h (.nil d')

/-- Requests with the words of a run's events are served as the run says, whatever they put on FRAME_IN. -/
theorem servesAll_of_feedRun {d d' : Decoder} {is : List Instr} {rsps : List Response}
    (h : FeedRun d is rsps d') : ∀ {rs : List Request}, wordsAre rs is → ServesAll d rs rsps d' := by
  induction h with
  | nil d =>
    intro rs hw
    rw [List.map_eq_nil_iff.1 hw]
    exact .nil d
  | cons he _ ih =>
    intro rs hw
    obtain ⟨r, rs, rfl, hr, hrs⟩ := List.map_eq_cons_iff.1 hw
    exact .cons (.feed _ _ (by rw [hr]; exact decode_encode _) he) (ih hrs)

/-- The trace of requests whose words are a run's events. -/
theorem trace_of_feedRun {s : State} {d d' : Decoder} {is : List Instr} {rsps : List Response}
    {rs rest : List Request} (h : FeedRun d is rsps d') (hdec : s.dec = d) (hw : s.waiting = rs ++ rest)
    (hwords : wordsAre rs is) :
    ∃ t, trace is.length s = some (rsps.map some, t) ∧ t.waiting = rest ∧ t.dec = d' := by
  have hlen : rs.length = is.length := by simpa using congrArg List.length hwords
  exact hlen ▸ trace_of_servesAll (servesAll_of_feedRun h hwords) hdec hw

/-! ### One byte on the wire, bit 0 first -/

/-- `n` PENDING responses. -/
abbrev pendings (n : Nat) : List Response := List.replicate n (bareResponse .pending)

/-- The bits 0 to `n - 1` of a byte. -/
def lowBits (v : Byte) (n : Nat) : Byte := BitVec.setWidth 8 (BitVec.setWidth n v)

theorem lowBits_bit (v : Byte) (n : Nat) {j : Nat} (hj : j < 8) :
    (lowBits v n).getLsbD j = (decide (j < n) && v.getLsbD j) := by
  simp [lowBits, BitVec.getLsbD_setWidth, hj]

theorem lowBits_zero (v : Byte) : lowBits v 0 = 0 := by
  apply BitVec.eq_of_getLsbD_eq
  intro j hj
  simp [lowBits_bit v 0 hj]

/-- The decoder with the bits 0 to `n - 1` of `v` received. -/
def Decoder.holding (d : Decoder) (v : Byte) (n : Nat) : Decoder :=
  { d with acc := lowBits v n, nbits := BitVec.ofNat 3 n }

section Byte
variable {d : Decoder} (v : Byte)

theorem toNat_nbits_holding {n : Nat} (h : n < 8) : (d.holding v n).nbits.toNat = n := by
  simp only [Decoder.holding, BitVec.toNat_ofNat]
  omega

theorem pushBit_holding {n : Nat} (h : n < 7) :
    ((d.holding v n).pushBit (v.getLsbD n)) = d.holding v (n + 1) := by
  have hacc : (d.holding v n).accWith (v.getLsbD n) = lowBits v (n + 1) := by
    apply BitVec.eq_of_getLsbD_eq
    intro j hj
    rw [accWith_bit _ _ hj, toNat_nbits_holding v (by omega), lowBits_bit v _ hj]
    simp only [Decoder.holding, lowBits_bit v n hj]
    obtain hlt | rfl | hgt := lt_trichotomy j n
    · simp [hlt, Nat.lt_succ_of_lt hlt, hlt.ne]
    · simp
    · simp [hgt.ne', not_lt.2 hgt.le, show ¬ j < n + 1 by omega]
  have hnbits : (BitVec.ofNat 3 n) + 1 = BitVec.ofNat 3 (n + 1) := by
    rw [BitVec.ofNat_add]
    rfl
  rw [Decoder.pushBit, hacc]
  simp only [Decoder.holding, hnbits]

theorem eighth_bit : ∀ (b : Bool) (j : Fin 8),
    (if b then (0x80 : Byte) else 0).getLsbD j = (decide (j.val = 7) && b) := by decide

/-- The eighth bit completes the byte. -/
theorem holding_completes (hs : d.stage = .dataMode) (hc : d.carrier = false) :
    (d.holding v 7).Completes (v.getLsbD 7) v where
  stage := hs
  carrier := hc
  nbits := rfl
  value := by
    apply BitVec.eq_of_getLsbD_eq
    intro j hj
    rw [BitVec.getLsbD_or, eighth_bit _ ⟨j, hj⟩]
    simp only [Decoder.holding, lowBits_bit v 7 hj]
    obtain hlt | rfl : j < 7 ∨ j = 7 := by omega
    · simp [hlt, hlt.ne]
    · simp

theorem isBit_reference (b : Bool) : isBit b (if b then 1258 else 424) = true := by cases b <;> decide

theorem mark_effect (hs : d.stage = .dataMode) (hc : d.carrier = true) :
    FeedEffect d .L 410 (d.setCarrier false) (bareResponse .pending) :=
  .marked hs hc (expects_of_mark hs hc ▸ by decide)

theorem bit_run (hs : d.stage = .dataMode) (hc : d.carrier = true) {n : Nat} (h : n < 7) :
    FeedRun (d.holding v n) (feedBit (v.getLsbD n)) (pendings 2) (d.holding v (n + 1)) := by
  have hspace : FeedEffect ((d.holding v n).setCarrier false) .H (if v.getLsbD n then 1258 else 424)
      ((((d.holding v n).setCarrier false).setCarrier true).pushBit (v.getLsbD n)) (bareResponse .pending) :=
    .bit _ hs rfl rfl (isBit_reference _) (by
      rw [setCarrier_nbits, toNat_nbits_holding v (by omega)]
      exact h)
  have hcarrier : ((d.holding v n).setCarrier false).setCarrier true = d.holding v n := by
    simp [Decoder.setCarrier, Decoder.holding, hc]
  rw [hcarrier, pushBit_holding v h] at hspace
  exact .cons (mark_effect hs hc) (feedRun_single hspace)

theorem bits_run (hs : d.stage = .dataMode) (hc : d.carrier = true) {n : Nat} (h : n ≤ 7) :
    FeedRun (d.holding v 0) ((List.range n).flatMap fun j => feedBit (v.getLsbD j)) (pendings (2 * n))
      (d.holding v n) := by
  induction n with
  | zero => exact .nil _
  | succ n ih =>
    rw [List.range_succ, List.flatMap_append, List.flatMap_singleton, Nat.mul_succ, pendings,
      List.replicate_add]
    exact feedRun_append (ih (by omega)) (bit_run v hs hc (by omega))

theorem holding_zero (ha : d.acc = 0) (hn : d.nbits = 0) : d.holding v 0 = d := by
  cases d
  simp_all [Decoder.holding, lowBits_zero]

/-- The sixteen events of a byte: fifteen PENDING, and then what the completed byte has for its effect. -/
theorem byte_run (hs : d.stage = .dataMode) (hc : d.carrier = true) (ha : d.acc = 0) (hn : d.nbits = 0)
    {d' : Decoder} {rsp : Response}
    (h : ∀ x, isBit (v.getLsbD 7) x = true → FeedEffect ((d.holding v 7).setCarrier false) .H x d' rsp) :
    FeedRun d (feedByte v) (pendings 15 ++ [rsp]) d' := by
  have hfirst := bits_run v hs hc (n := 7) le_rfl
  rw [holding_zero v ha hn] at hfirst
  have hlast : FeedRun (d.holding v 7) (feedBit (v.getLsbD 7)) [bareResponse .pending, rsp] d' :=
    .cons (mark_effect hs hc) (feedRun_single (h _ (isBit_reference _)))
  rw [feedByte, List.range_succ, List.flatMap_append, List.flatMap_singleton]
  have hall : pendings 15 ++ [rsp] = pendings (2 * 7) ++ [bareResponse .pending, rsp] := rfl
  rw [hall]
  exact feedRun_append hfirst hlast

/-- A byte that is stored with PENDING: the decoder is as before but for the byte, the count and `check`. -/
theorem stored_byte_run (hs : d.stage = .dataMode) (hc : d.carrier = true) (ha : d.acc = 0) (hn : d.nbits = 0)
    {c : Bool} (h53 : d.byteIndex.toNat < 53) (hst : Stores d v c) :
    FeedRun d (feedByte v) (pendings 16) (d.storeByte v c) := by
  have hend : (((d.holding v 7).setCarrier false).setCarrier true).clearBits.storeByte v c = d.storeByte v c := by
    simp only [Decoder.storeByte, Decoder.clearBits, Decoder.setCarrier, Decoder.holding, ← hc, ← ha, ← hn]
  have hcompletes : ((d.holding v 7).setCarrier false).Completes (v.getLsbD 7) v :=
    holding_completes (d := d.setCarrier false) v hs rfl
  refine byte_run v hs hc ha hn fun x hx => ?_
  rw [← hend]
  exact .byte _ v c hcompletes rfl hx h53 hst

end Byte

/-- Settles O47: a header byte is stored whatever its value, and keeps `check`. -/
theorem feedByteStoresAHeaderByte : Obligations.FeedByteStoresAHeaderByte := by
  intro s v rs rest hw hwords hs hc ha hn h3
  have hrun := stored_byte_run v hs hc ha hn (by omega) (.inl ⟨h3, rfl⟩)
  obtain ⟨t, htrace, hrest, hdec⟩ := trace_of_feedRun hrun rfl hw hwords
  rw [List.map_replicate] at htrace
  exact ⟨t, htrace, hrest, hdec⟩

/-! ### A whole frame -/

/-- The decoder between two bytes of the frame `f`, `k` of them received. -/
def Decoder.received (f : Frame) (k : Nat) : Decoder where
  stage := .dataMode
  carrier := true
  acc := 0
  nbits := 0
  byteIndex := BitVec.ofNat 6 k
  check := decide (3 ≤ k ∧ k % 2 = 0)
  buf := Vector.ofFn fun j => if j.val < k then some f[j] else none

section Frame
variable {f : Frame}

theorem received_zero : Decoder.received f 0 = Decoder.init.setStage .dataMode := by
  simp only [Decoder.received, Decoder.setStage, Decoder.init, Decoder.mk.injEq, true_and]
  refine ⟨rfl, by decide, ?_⟩
  apply Vector.ext
  simp

theorem toNat_byteIndex_received {k : Nat} (h : k < 53) : (Decoder.received f k).byteIndex.toNat = k := by
  simp only [Decoder.received, BitVec.toNat_ofNat]
  omega

theorem readCell_received (k j : Nat) (hj : j < k) (hk : k < 53) :
    readCell (Decoder.received f k).buf j = some f[j] := by
  rw [readCell_eq _ _ (by omega)]
  simp [Decoder.received, hj]

theorem received_succ {k : Nat} (h : k < 53) :
    (Decoder.received f k).storeByte f[k] (decide (3 ≤ k + 1 ∧ (k + 1) % 2 = 0)) = Decoder.received f (k + 1) := by
  rw [Decoder.storeByte, toNat_byteIndex_received h]
  simp only [Decoder.received, Decoder.mk.injEq, true_and]
  refine ⟨(BitVec.ofNat_add ..).symm, ?_⟩
  apply Vector.ext
  intro j hj
  rw [Vector.getElem_setIfInBounds]
  by_cases hjk : k = j
  · simp [hjk]
  · have hiff : j < k ↔ j < k + 1 := by omega
    simp [hjk, hiff]

/-- The data byte of a check position, and the check byte as its complement. -/
theorem paired_at (hp : Frame.Paired f) {k : Nat} (h4 : 4 ≤ k) (h53 : k < 53) (heven : k % 2 = 0) :
    f[k] = f[k - 1] ^^^ 0xFF := by
  have hpair := hp ⟨(k - 4) / 2, by omega⟩
  simp only [show 2 * ((k - 4) / 2) + 4 = k by omega, show 2 * ((k - 4) / 2) + 3 = k - 1 by omega] at hpair
  exact hpair

theorem received_stores (hp : Frame.Paired f) {k : Nat} (h : k < 52) :
    Stores (Decoder.received f k) f[k] (decide (3 ≤ k + 1 ∧ (k + 1) % 2 = 0)) := by
  have hindex := toNat_byteIndex_received (f := f) (k := k) (by omega)
  rw [Stores, hindex]
  by_cases h3 : k < 3
  · refine .inl ⟨h3, ?_⟩
    rw [Decoder.received, decide_eq_decide]
    omega
  · obtain heven | hodd := Nat.mod_two_eq_zero_or_one k
    · refine .inr (.inr ⟨by omega, decide_eq_true ⟨by omega, heven⟩, decide_eq_false (by omega), fun h52 => ?_,
        f[k - 1], readCell_received k (k - 1) (by omega) (by omega), paired_at hp (by omega) (by omega) heven⟩)
      rw [h52] at hindex
      simp at hindex
      omega
    · exact .inr (.inl ⟨by omega, decide_eq_false (by omega), decide_eq_true (by omega)⟩)

/-- The first `n` bytes of a frame, header bytes, data bytes and passing check bytes, are stored with PENDING. -/
theorem bytes_run (hp : Frame.Paired f) {n : Nat} (h : n ≤ 52) :
    FeedRun (Decoder.received f 0) ((f.toList.take n).flatMap feedByte) (pendings (16 * n))
      (Decoder.received f n) := by
  induction n with
  | zero => exact .nil _
  | succ n ih =>
    have hbyte := stored_byte_run (d := Decoder.received f n) f[n] rfl rfl rfl rfl
      (by rw [toNat_byteIndex_received (by omega)]; omega) (received_stores hp (by omega))
    rw [received_succ (by omega)] at hbyte
    rw [List.take_succ_eq_append_getElem (by simp; omega), List.flatMap_append, List.flatMap_singleton,
      Vector.getElem_toList, Nat.mul_succ, pendings, List.replicate_add]
    exact feedRun_append (ih (by omega)) hbyte

/-- The last check byte completes the frame. -/
theorem last_byte_run (hp : Frame.Paired f) : FeedRun (Decoder.received f 52) (feedByte f[52])
    (pendings 15 ++ [parseResponse Config.params .frameComplete f]) Decoder.init := by
  have hcells (k : Fin 52) : readCell (Decoder.received f 52).buf k = some f[k.val] :=
    readCell_received 52 k k.isLt (by decide)
  have hcompletes : (((Decoder.received f 52).holding f[52] 7).setCarrier false).Completes (f[52].getLsbD 7) f[52] :=
    holding_completes (d := (Decoder.received f 52).setCarrier false) _ rfl rfl
  exact byte_run f[52] rfl rfl rfl rfl fun x hx =>
    .complete _ f[52] f[51] f hcompletes rfl hx rfl rfl (hcells 51)
      (paired_at hp (by decide) (by decide) (by decide)) (frameOfCells_of_cells_below hcells)

theorem preamble_run : FeedRun Decoder.init feedPre (pendings 4) (Decoder.init.setStage .dataMode) :=
  .cons (.advanced .leaderMark .leaderMark (by decide)) <|
  .cons (.advanced .leaderSpace .leaderSpace (by decide)) <|
  .cons (.advanced .syncBit .headerMark (by decide)) <|
  feedRun_single (.advanced .dataMode .headerSpace (by decide))

/-- The reference transmission of a frame with passing checks, from INIT. -/
theorem send_run (hp : Frame.Paired f) : FeedRun Decoder.init (send f)
    (pendings 851 ++ [parseResponse Config.params .frameComplete f]) Decoder.init := by
  have hbytes := bytes_run hp (n := 52) le_rfl
  rw [received_zero] at hbytes
  have hlist : f.toList = f.toList.take 52 ++ [f[52]] := by
    have hall : f.toList.take 53 = f.toList := List.take_of_length_le (by simp)
    rw [← hall, List.take_succ_eq_append_getElem (by simp), Vector.getElem_toList]
    simp
  have hframe := feedRun_append hbytes (last_byte_run hp)
  have hrun := feedRun_append preamble_run hframe
  rw [send, feedFrame, hlist, List.flatMap_append, List.flatMap_singleton]
  have hresponses : pendings 851 = pendings 4 ++ (pendings (16 * 52) ++ pendings 15) := by
    rw [pendings, pendings, pendings, ← List.replicate_add, ← List.replicate_add]
  rw [hresponses, List.append_assoc, List.append_assoc]
  exact hrun

end Frame

/-! ### Length and air time -/

/-- The bits of a frame in the order they are sent (20_memory.md R54, R55). -/
def frameBits (f : Frame) : List Bool := f.toList.flatMap fun v => (List.range 8).map fun j => v.getLsbD j

theorem feedFrame_eq (f : Frame) : feedFrame f = (frameBits f).flatMap feedBit := by
  rw [feedFrame, frameBits, List.flatMap_assoc]
  refine List.flatMap_congr fun v _ => ?_
  rw [feedByte, List.flatMap_map]

theorem frameBits_length (f : Frame) : (frameBits f).length = 424 := by
  simp [frameBits, List.length_flatMap, List.map_const']

theorem bits_length (bs : List Bool) : (bs.flatMap feedBit).length = 2 * bs.length := by
  induction bs with
  | nil => rfl
  | cons b bs ih =>
    rw [List.flatMap_cons, List.length_append, ih, List.length_cons, feedBit, List.length_cons,
      List.length_singleton]
    omega

theorem send_length (f : Frame) : (send f).length = 852 := by
  rw [send, feedFrame_eq, List.length_append, bits_length, frameBits_length]
  rfl

theorem airTime_append (is is' : List Instr) : airTime (is ++ is') = airTime is + airTime is' := by
  induction is with
  | nil => simp [airTime]
  | cons i is ih =>
    rw [List.cons_append]
    cases i <;> simp only [airTime, ih]
    omega

theorem airTime_bits (bs : List Bool) : airTime (bs.flatMap feedBit) =
    410 * bs.length + 424 * (bs.length - bs.count true) + 1258 * bs.count true := by
  induction bs with
  | nil => rfl
  | cons b bs ih =>
    have hle : bs.count true ≤ bs.length := List.count_le_length
    rw [List.flatMap_cons, airTime_append, ih, List.length_cons]
    cases b <;> simp [feedBit, airTime] <;> omega

/-- Settles O53: the preamble is four events of 84080 microseconds, and each of the 424 bits two events. -/
theorem transmissionLengthAndAirTime : Obligations.TransmissionLengthAndAirTime := by
  intro f n1
  have hn1 : n1 = (frameBits f).count true := rfl
  have hpre : airTime feedPre = 84080 := by decide
  refine ⟨send_length f, ?_, ?_⟩
  · rw [hn1, ← frameBits_length f]
    exact List.count_le_length
  · rw [send, feedFrame_eq, airTime_append, airTime_bits, frameBits_length, hpre, ← hn1]
    omega

/-! ### Transmissions that decode -/

/-- The trace of the reference transmission of a frame with passing checks, from INIT. -/
theorem transmission_decodes {s : State} {f : Frame} {rs rest : List Request} (hp : Frame.Paired f)
    (hinit : s.dec = Decoder.init) (hw : s.waiting = rs ++ rest) (hwords : wordsAre rs (send f)) :
    ∃ t : State, trace 852 s = some (List.replicate 851 (some (bareResponse .pending)) ++
        [some (parseResponse Config.params .frameComplete f)], t) ∧ t.waiting = rest ∧ t.dec = Decoder.init := by
  obtain ⟨t, htrace, hrest, hdec⟩ := trace_of_feedRun (send_run hp) hinit hw hwords
  rw [send_length, List.map_append, List.map_replicate] at htrace
  exact ⟨t, htrace, hrest, hdec⟩

/-- The same trace, with the response to the last event as PARSE of the frame gives it. -/
theorem transmission_decodes_as_parse {s s0 u : State} {f : Frame} {rs rest : List Request} {rsp : Response}
    (hp : Frame.Paired f) (hinit : s.dec = Decoder.init) (hw : s.waiting = rs ++ rest)
    (hwords : wordsAre rs (send f)) (hparse : exec .parse { s0 with frameIn := busOf f } = .next u)
    (hrsp : u.response = some rsp) :
    ∃ t : State, trace 852 s =
        some (List.replicate 851 (some (bareResponse .pending)) ++ [some { rsp with word := 2 }], t) ∧
      t.waiting = rest ∧ t.dec = Decoder.init := by
  rw [response_of_exec_parse hparse hrsp, ← parseResponse_frameComplete]
  exact transmission_decodes hp hinit hw hwords

/-- Settles O48: the 852 events are the four of the preamble, then 53 bytes of which the last completes the
frame. -/
theorem referenceTransmissionDecodes : Obligations.ReferenceTransmissionDecodes :=
  fun _ _ _ _ _ _ hp hinit hw hwords hparse hrsp =>
    transmission_decodes_as_parse hp hinit hw hwords hparse hrsp

theorem encodeFrame_paired (p : Params) (c : Command) : Frame.Paired (encodeFrame p c) := by
  intro i
  rw [encodeFrame, double_complement _ _ _ i.isLt, double_data _ _ _ i.isLt]

/-- Settles O49: ENCODE's frame has passing checks, and its payload is its command's, with no warning. -/
theorem encodedCommandSurvivesTheWire : Obligations.EncodedCommandSurvivesTheWire := by
  intro c s0 t0 s rsp0 out rs rest hexec hrsp hout hinit hw hwords
  obtain rfl := frameOut_of_exec_encode hexec hrsp hout
  rw [frameOfBus_busOf] at hwords
  obtain ⟨t, htrace, hend⟩ := transmission_decodes (encodeFrame_paired _ c) hinit hw hwords
  rw [parseResponse_encodeFrame] at htrace
  exact ⟨t, busOf (serialize Config.params c), htrace, hend⟩

/-- Settles O50: a request answered with kind 3 or 4 leaves the decoder at INIT. -/
theorem transmissionAfterAnErrorDecodes : Obligations.TransmissionAfterAnErrorDecodes := by
  intro s s1 u r f rs rest rsp1 rsp hw hstep hrsp1 hkind hp hwords hparse hrsp
  obtain ⟨hinit, -⟩ := decoderBecomesInitOnlyAtTheListedEvents s s1 r _ rsp1 hw hstep hrsp1
  obtain ⟨d', rsp', -, rfl⟩ := serves_of_step hw hstep
  exact transmission_decodes_as_parse hp (hinit (.inr (.inr hkind))) rfl hwords hparse hrsp

/-! ### Events that do not leave Idle -/

/-- What the decoder at INIT answers to an event that is no leader mark. -/
def idleAnswer (e : Level × Duration) : Response :=
  match e.1 with
  | .H => bareResponse .pending
  | .L => bareResponse (.toleranceViolation .idle .L .leaderMark e.2)

theorem idle_effect {e : Level × Duration} (h : WindowId.leaderMark.fits e.1 e.2 = false) :
    FeedEffect Decoder.init e.1 e.2 Decoder.init (idleAnswer e) := by
  obtain ⟨lv, x⟩ := e
  cases lv with
  | H => exact .ignored rfl rfl
  | L => exact .violated (not_takes_of_misfit .leaderMark rfl (fun _ => rfl) (by simpa using h))

theorem idle_run {es : List (Level × Duration)} (h : ∀ e ∈ es, WindowId.leaderMark.fits e.1 e.2 = false) :
    FeedRun Decoder.init (es.map fun e => .feed e.1 e.2) (es.map idleAnswer) Decoder.init := by
  induction es with
  | nil => exact .nil _
  | cons e es ih =>
    exact .cons (idle_effect (h e List.mem_cons_self)) (ih fun e' he' => h e' (List.mem_cons_of_mem _ he'))

/-- Settles O51: events that are no leader mark leave the decoder at INIT, and the transmission after them is
one from INIT. -/
theorem startingMidStreamDecodesTheNextFrame : Obligations.StartingMidStreamDecodesTheNextFrame := by
  intro s u noise f ns rs rest rsp hinit hw hnoise hmisfit hp hwords hparse hrsp
  obtain ⟨s1, htrace1, hw1, hinit1⟩ := trace_of_feedRun (idle_run hmisfit) hinit hw hnoise
  rw [List.length_map, List.map_map] at htrace1
  obtain ⟨t, htrace, hend⟩ := transmission_decodes_as_parse hp hinit1 hw1 hwords hparse hrsp
  exact ⟨s1, t, htrace1, hinit1, htrace, hend⟩

theorem idle_run_exists {is : List Instr}
    (h : ∀ i ∈ is, ∃ e : Level × Duration, i = .feed e.1 e.2 ∧ WindowId.leaderMark.fits e.1 e.2 = false) :
    ∃ rsps, FeedRun Decoder.init is rsps Decoder.init := by
  induction is with
  | nil => exact ⟨_, .nil _⟩
  | cons i is ih =>
    obtain ⟨e, rfl, hmisfit⟩ := h i List.mem_cons_self
    obtain ⟨rsps, hrun⟩ := ih fun j hj => h j (List.mem_cons_of_mem _ hj)
    exact ⟨_, .cons (idle_effect hmisfit) hrun⟩

/-- The events of a transmission: no space of it, were it a mark, would be a leader mark. -/
theorem send_events {f : Frame} {i : Instr} (h : i ∈ send f) :
    (∃ x, i = .feed .L x) ∨ ∃ x, i = .feed .H x ∧ WindowId.leaderMark.fits .L x = false := by
  rw [send, feedFrame_eq, List.mem_append, List.mem_flatMap] at h
  obtain h | ⟨b, -, h⟩ := h
  · simp only [feedPre, List.mem_cons, List.not_mem_nil, or_false] at h
    rcases h with rfl | rfl | rfl | rfl
    · exact .inl ⟨_, rfl⟩
    · exact .inr ⟨_, rfl, by decide⟩
    · exact .inl ⟨_, rfl⟩
    · exact .inr ⟨_, rfl, by decide⟩
  · simp only [feedBit, List.mem_cons, List.not_mem_nil, or_false] at h
    rcases h with rfl | rfl
    · exact .inl ⟨_, rfl⟩
    · exact .inr ⟨_, rfl, by cases b <;> decide⟩

/-- Settles O52: inverted, the marks are high and ignored, and no space is a leader mark. -/
theorem invertedPolarityNeverLeavesIdle : Obligations.InvertedPolarityNeverLeavesIdle := by
  intro s f rs rest n hinit hw hwords hn
  generalize hinv : (send f).map _ = inv at hwords
  have hlen : inv.length = 852 := by rw [← hinv, List.length_map, send_length]
  have hidle : ∀ i ∈ inv.take n, ∃ e : Level × Duration,
      i = .feed e.1 e.2 ∧ WindowId.leaderMark.fits e.1 e.2 = false := by
    intro i hi
    rw [← hinv] at hi
    obtain ⟨j, hj, rfl⟩ := List.mem_map.1 (List.mem_of_mem_take hi)
    obtain ⟨x, rfl⟩ | ⟨x, rfl, hx⟩ := send_events hj
    · exact ⟨(.H, x), rfl, rfl⟩
    · exact ⟨(.L, x), rfl, hx⟩
  obtain ⟨rsps, hrun⟩ := idle_run_exists hidle
  have hwords' : wordsAre (rs.take n) (inv.take n) := by
    rw [wordsAre, List.map_take, List.map_take, hwords]
  have hw' : s.waiting = rs.take n ++ (rs.drop n ++ rest) := by
    rw [← List.append_assoc, List.take_append_drop, hw]
  obtain ⟨t, htrace, -, hdec⟩ := trace_of_feedRun hrun hinit hw' hwords'
  rw [List.length_take_of_le (by omega)] at htrace
  exact ⟨_, t, htrace, hdec⟩

end Sys2Proof.Machine
end
